-- ==== Sys2Proof/Word.lean ====
section
/-! DEFINITION. The word types of the Streebog hash engine (spec/00_scope.md R9, R10). -/

namespace Sys2Proof

/-- An unsigned 8-bit value (R9). -/
abbrev Byte := BitVec 8

/-- A 32-bit bus word: a command word or the word of a register read (R53, R80). -/
abbrev Word := BitVec 32

/-- A 64-bit datapath word: a row of the linear basis, an eighth of a block (R10, R132). -/
abbrev Dword := BitVec 64

/-- A sequence of exactly 64 bytes, held as its big-endian value `int512` (R10): byte 0 is the most
significant byte. `int512` and `bytes512` of the spec are then `toNat` and `BitVec.ofNat 512`. The
bytes themselves are read with `Bytes64.byte` (Machine/Bytes.lean). -/
abbrev Bytes64 := BitVec 512

end Sys2Proof
end

