-- ==== Sys2Proof/Syntax.lean ====
section
/-! DEFINITION. The commands of the engine, one constructor per row of spec/opcode_table.json
(spec/30_encoding.md R80 to R88). -/

namespace Sys2Proof

/-- A context index as a command word carries it: 4 bits, unsigned (R82, R83). -/
abbrev CtxIx := BitVec 4

/-- A command whose opcode is defined and whose reserved bits are zero. The operand fields are held
exactly as the word carries them, legal or not: an index of a context that does not exist (R82) and
a width code 0b00 or 0b11 (R85) are commands too, and the engine answers them with an error (R201). -/
inductive Instr where
  /-- NOP (R166). -/
  | nop
  /-- INIT c, wid (R167): `wid` is the raw code of R85. -/
  | init (c : CtxIx) (wid : BitVec 2)
  /-- RESET c (R168). -/
  | reset (c : CtxIx)
  /-- ABSORB c, b (R169). -/
  | absorb (c : CtxIx) (b : Byte)
  /-- FINAL c, olen (R170): `olen` is the length of the caller's buffer in bytes, 0..127 (R86). -/
  | final (c : CtxIx) (olen : BitVec 7)
  /-- CLONE d, s (R171): context `d` becomes a copy of context `s`. -/
  | clone (d s : CtxIx)
  /-- ERRACK (R172). -/
  | errack
  deriving DecidableEq, Repr

end Sys2Proof
end

