-- ==== Sys2Proof/Decode.lean ====
section
/-! DEFINITION. Decoding of command words and, after it, their encoding (spec/30_encoding.md R80 to
R91). Decoding is total: a word is a command, or is rejected as an illegal opcode (R89) or for a set
reserved bit (R87). The checks that need the engine's state or its size (R201) are not made here. -/

namespace Sys2Proof

/-! ### Fields (R80 to R86) -/

/-- OP = w[31:28] (R81). -/
def opField (w : Word) : BitVec 4 := w.extractLsb' 28 4

/-- CTX = w[27:24] (R82). -/
def ctxField (w : Word) : CtxIx := w.extractLsb' 24 4

/-- SRC = w[23:20] (R83). -/
def srcField (w : Word) : CtxIx := w.extractLsb' 20 4

/-- DATA = w[7:0] (R84). -/
def dataField (w : Word) : Byte := w.extractLsb' 0 8

/-- WID = w[1:0] (R85). -/
def widField (w : Word) : BitVec 2 := w.extractLsb' 0 2

/-- OLEN = w[6:0] (R86). -/
def olenField (w : Word) : BitVec 7 := w.extractLsb' 0 7

/-! ### Decoder -/

/-- Why a word is no command. -/
inductive DecodeError where
  /-- OP is 0x7..0xF (R89); the engine raises E_OPCODE. -/
  | illegalOpcode
  /-- A bit of RSVD(OP) is set (R87); the engine raises E_RSVD. -/
  | reservedBits
  deriving DecidableEq, Repr

/-- RSVD(OP), the bits that must be zero (R87); nothing is required of an undefined opcode. -/
def reservedMask (op : BitVec 4) : Word :=
  match op.toNat with
  | 0 => 0x0FFFFFFF
  | 1 => 0x00FFFFFC
  | 2 => 0x00FFFFFF
  | 3 => 0x00FFFF00
  | 4 => 0x00FFFF80
  | 5 => 0x000FFFFF
  | 6 => 0x0FFFFFFF
  | _ => 0

/-- The command an opcode selects, with its operand fields read from the word (R88, R91); none for
the opcodes 0x7..0xF (R89). -/
def selectCommand (w : Word) : Option Instr :=
  match (opField w).toNat with
  | 0 => some .nop
  | 1 => some (.init (ctxField w) (widField w))
  | 2 => some (.reset (ctxField w))
  | 3 => some (.absorb (ctxField w) (dataField w))
  | 4 => some (.final (ctxField w) (olenField w))
  | 5 => some (.clone (ctxField w) (srcField w))
  | 6 => some .errack
  | _ => none

/-- The decoder: the opcode is checked first, then the reserved bits (R87, R89, and the first two
lines of R201). -/
def decode (w : Word) : Except DecodeError Instr :=
  match selectCommand w with
  | none => .error .illegalOpcode
  | some i => if w &&& reservedMask (opField w) = 0 then .ok i else .error .reservedBits

/-- The host's table interface: every command is one 32-bit word (R90), so `w` is that word, and the
bits from `nbits` up are zero. More than 32 bits are no command. -/
def decodeTableWord (nbits w : Nat) : Option Instr :=
  if nbits ≤ 32 then
    match decode (BitVec.ofNat 32 (w % 2 ^ nbits)) with
    | .ok i => some i
    | .error _ => none
  else none

/-! ### Encoder (R91) -/

/-- `c << 24`, the CTX field in place. -/
def atCtx (c : CtxIx) : Word := c.setWidth 32 <<< 24

/-- `s << 20`, the SRC field in place. -/
def atSrc (s : CtxIx) : Word := s.setWidth 32 <<< 20

/-- enc(i) of R91. -/
def encode : Instr → Word
  | .nop => 0x00000000
  | .init c wid => 0x10000000 ||| atCtx c ||| wid.setWidth 32
  | .reset c => 0x20000000 ||| atCtx c
  | .absorb c b => 0x30000000 ||| atCtx c ||| b.setWidth 32
  | .final c olen => 0x40000000 ||| atCtx c ||| olen.setWidth 32
  | .clone d s => 0x50000000 ||| atCtx d ||| atSrc s
  | .errack => 0x60000000

end Sys2Proof
end

