-- ==== Sys2Proof/Config.lean ====
section
/-! DEFINITION. The fixed and the open parameters of the engine (spec/00_scope.md R6, R7). -/

namespace Sys2Proof.Config

/-- Reference value of NCTX, the number of contexts of `State.reset` (R7, D3). The number itself is
held in State, so that statements range over every size. -/
def referenceNctx : Nat := 4

/-- Size in bytes of the register window; BASE is a multiple of it (R51). -/
def windowBytes : Nat := 0x200

/-- BLOCK_BYTES (R6). -/
def blockBytes : Nat := 64

/-- ROUNDS of the internal encryption (R6). -/
def rounds : Nat := 12

/-- LAT(cmd) of R7, R238: the time from a CMD write to its completion, finite and otherwise open, so it
has no body. No rule depends on it and no definition of the model reads it (log 8). -/
opaque lat : Word → Nat

end Sys2Proof.Config
end

