-- ==== Sys2Proof/Machine/Bytes.lean ====
section
/-! DEFINITION. Bytes of a 64-byte value, byte order and reversal (spec/00_scope.md R9 to R11,
spec/20_memory.md R59, R60). -/

namespace Sys2Proof.Machine

/-- `b[i]` for i in 0..63: byte 0 is the most significant (R10). -/
def byte (b : Bytes64) (i : Nat) : Byte := b.extractLsb' (8 * (63 - i)) 8

/-- `word64(b, w)` for w in 0..7: the big-endian word of bytes 8w .. 8w+7 (R10). -/
def word64 (b : Bytes64) (w : Nat) : Dword := b.extractLsb' (64 * (7 - w)) 64

/-- `f 0 ‖ f 1 ‖ … ‖ f (n − 1)`, each `k` bits wide, the first in the most significant place. -/
def pack {k : Nat} (f : Nat → BitVec k) : Nat → Bytes64
  | 0 => 0
  | n + 1 => (pack f n <<< k) ||| (f n).setWidth 512

/-- The Bytes64 whose byte i is `f i`. -/
def ofBytes (f : Nat → Byte) : Bytes64 := pack f 64

/-- The Bytes64 made of the eight big-endian words `f 0 .. f 7`: `put64` of each in turn (R10). -/
def ofWords (f : Nat → Dword) : Bytes64 := pack f 8

/-- The Bytes64 that begins with the bytes of `l`, zero beyond them. -/
def ofList (l : List Byte) : Bytes64 := ofBytes fun i => l.getD i 0

/-- The 64 bytes in order. -/
def toList (b : Bytes64) : List Byte := (List.range 64).map (byte b)

/-- `rev(b)[i] = b[63 − i]` (R11). -/
def rev (b : Bytes64) : Bytes64 := ofBytes fun i => byte b (63 - i)

/-- `be64(n) = bytes512(n mod 2^512)` (R10). -/
def be64 (n : Nat) : Bytes64 := BitVec.ofNat 512 n

/-- `0^64` (R9). -/
def zero64 : Bytes64 := 0

end Sys2Proof.Machine
end

