-- ==== Sys2Proof/Machine/Primitives.lean ====
section
/-! DEFINITION. The block primitives (spec/40_block_primitives.md R110 to R116): pure functions on
64-byte values. -/

namespace Sys2Proof.Machine

/-- 512-bit big-endian addition modulo 2^512, the carry out discarded (R110). -/
def add512 (a b : Bytes64) : Bytes64 := a + b

/-- `X`, xorCombine: byte-wise XOR (R111). -/
def xorCombine (a b : Bytes64) : Bytes64 := a ^^^ b

/-- `S`, substitute (R112). -/
def substitute (b : Bytes64) : Bytes64 := ofBytes fun i => sbox (byte b i)

/-- `P`, permute (R113). -/
def permute (b : Bytes64) : Bytes64 := ofBytes fun i => byte b (tau i)

/-- The accumulator loop of R114 over the rows that are left: of the 64 rows, row j belongs to bit
63 − j, which is the number of rows after it. -/
def xorRows : List Dword → Dword → Dword → Dword
  | [], _, acc => acc
  | r :: rs, v, acc => xorRows rs v (bif v.getLsbD rs.length then acc ^^^ r else acc)

/-- The image of one 64-bit word under the matrix A (R114). -/
def diffuseWord (v : Dword) : Dword := xorRows arows v 0

/-- `L`, linearDiffuse (R114). -/
def linearDiffuse (b : Bytes64) : Bytes64 := ofWords fun w => diffuseWord (word64 b w)

/-- `LPS(b) = L(P(S(b)))` (R115). -/
def lps (b : Bytes64) : Bytes64 := linearDiffuse (permute (substitute b))

end Sys2Proof.Machine
end

