-- ==== Sys2Proof/Machine/Compression.lean ====
section
/-! DEFINITION. Key schedule, internal encryption E and compression function G
(spec/42_key_schedule_and_compression.md R140 to R144). -/

namespace Sys2Proof.Machine

/-- One step of the key schedule (R140). -/
def nextKey (k : Bytes64) (i : Nat) : Bytes64 := lps (xorCombine k (roundConstant i))

/-- The round keys K(0) = K0 and K(i+1) = nextKey(K(i), i) (R141). -/
def roundKey (k0 : Bytes64) : Nat → Bytes64
  | 0 => k0
  | i + 1 => nextKey (roundKey k0 i) i

/-- Round i of the loop of R142 on the pair (state, key). -/
def encryptRound (p : Bytes64 × Bytes64) (i : Nat) : Bytes64 × Bytes64 :=
  (xorCombine (lps p.1) (nextKey p.2 i), nextKey p.2 i)

/-- `E(K0, m)`: twelve rounds (R142). -/
def encrypt (k0 m : Bytes64) : Bytes64 :=
  ((List.range Config.rounds).foldl encryptRound (xorCombine m k0, k0)).1

/-- `G(N, h, m)`, the compression function (R143). -/
def compress (n h m : Bytes64) : Bytes64 :=
  xorCombine (xorCombine (encrypt (lps (xorCombine n h)) m) h) m

end Sys2Proof.Machine
end

