-- ==== Sys2Proof/Machine/State.lean ====
section
/-! DEFINITION. The architectural state (spec/10_state.md), the host's accesses that act on it
(spec/20_memory.md, spec/70_reset_and_hazards.md R230), and the ways a step can stop. -/

namespace Sys2Proof.Machine

/-- Output width flag WID (R25). -/
inductive Width where
  /-- 256-bit digest, code 0b01. -/
  | narrow
  /-- 512-bit digest, code 0b10. -/
  | wide
  deriving DecidableEq, Repr

/-- Life-cycle state CST (R26). The source's Finalized state exists inside one FINAL only. -/
inductive Cst where
  /-- No INIT since hardware reset, code 0b00. -/
  | uninit
  /-- Fresh, code 0b01. -/
  | empty
  /-- At least one byte absorbed, code 0b10. -/
  | accum
  deriving DecidableEq, Repr

/-- The values of the 4-bit register ERR (R200); the codes 8..15 are never raised. -/
inductive ErrCode where
  /-- 0 E_NONE. -/
  | none
  /-- 1 E_OPCODE. -/
  | opcode
  /-- 2 E_RSVD. -/
  | rsvd
  /-- 3 E_CTX. -/
  | ctx
  /-- 4 E_WIDTH. -/
  | width
  /-- 5 E_UNINIT. -/
  | uninit
  /-- 6 E_SIZE. -/
  | size
  /-- 7 E_BUS. -/
  | bus
  deriving DecidableEq, Repr

/-- One hash context (R20 to R26). LEN is the length of `buf` (R24). -/
structure Context where
  /-- CST. -/
  cst : Cst
  /-- WID. -/
  wid : Width
  /-- Chaining value. -/
  h : Bytes64
  /-- Counter of message bits. -/
  N : Bytes64
  /-- Checksum. -/
  sigma : Bytes64
  /-- Pending bytes, in stream order. -/
  buf : List Byte
  deriving DecidableEq, Repr

/-- What reaches the engine from outside, one at a time (R53, R54, R62, R230). Byte lane j of an access
is bit j of `lanes`. -/
inductive BusEvent where
  /-- `MemRead(addr, 4)`. -/
  | read (addr : Nat) (lanes : BitVec 4)
  /-- `MemWrite(addr, 4, v)`. -/
  | write (addr : Nat) (lanes : BitVec 4) (v : Word)
  /-- A pulse of the reset input. -/
  | hwReset
  deriving DecidableEq, Repr

/-- The state of the engine (R20 to R38) and of its bus. -/
structure State where
  /-- ctx[0] .. ctx[NCTX−1]: NCTX is the length of the list (R20). -/
  ctxs : List Context
  /-- ERR (R29). -/
  err : ErrCode
  /-- ERRINFO (R29). -/
  errInfo : Word
  /-- DV (R29). -/
  dv : Bool
  /-- DWID (R29): none is the code 0b00. -/
  dwid : Option Width
  /-- DCTX (R29). -/
  dctx : CtxIx
  /-- DIGEST (R29). -/
  digest : Bytes64
  /-- BASE / 0x200 (R51): a strap of the platform (log 5). -/
  baseUnit : Nat
  /-- Model's own: events that have not reached the engine yet, in order of arrival (R63, log 1). -/
  pending : List BusEvent
  /-- Model's own: the answers to the host's reads, newest first (log 2). -/
  replies : List Word
  deriving DecidableEq, Repr

/-- The engine never stops with a fault: its errors are latched in ERR and it goes on (R202 to R205),
so there is no reason here. -/
inductive Fault
  deriving DecidableEq, Repr

/-- Why a step has no meaning in the model. -/
inductive Refusal where
  /-- An instruction without a meaning yet; raised by no arm of exec. Safe. -/
  | notModelled (mnemonic : String)
  /-- A host access whose address is outside the register window: "The platform decides what happens to
  host addresses outside the window" (R51, U8 `refuse`). Raised by the bus step. Safe. -/
  | outsideWindow
  deriving DecidableEq, Repr

/-- NCTX (R20). -/
def State.nctx (s : State) : Nat := s.ctxs.length

/-- BASE (R51). -/
def State.base (s : State) : Nat := Config.windowBytes * s.baseUnit

/-- A context no INIT has configured since reset (R38). Its WID, h, N and sigma are unspecified and not
observable (U1, U2); the values here are a DESIGN CHOICE (log 3). -/
def Context.uninit : Context :=
  { cst := .uninit, wid := .narrow, h := 0, N := 0, sigma := 0, buf := [] }

/-- The state after hardware reset of an engine with `nctx` contexts at BASE = 0x200·`baseUnit` (R38,
R230), with nothing pending on its bus. -/
def State.resetWith (nctx baseUnit : Nat) : State :=
  { ctxs := List.replicate nctx Context.uninit
    err := .none
    errInfo := 0
    dv := false
    dwid := none
    dctx := 0
    digest := 0
    baseUnit := baseUnit
    pending := []
    replies := [] }

/-- The state after hardware reset with the reference number of contexts (R7, log 4) and BASE = 0
(DESIGN CHOICE, log 5). -/
def State.reset : State := State.resetWith Config.referenceNctx 0

end Sys2Proof.Machine
end

