-- ==== Sys2Proof/Machine/Operands.lean ====
section
/-! DEFINITION. The operand forms of the commands with the checks R201 makes of them, in its order: a
context index, a context that must be initialised, a width code, a buffer length. Each answers the
operand's value or the error code. -/

namespace Sys2Proof.Machine

/-- A context that exists: E_CTX when c ≥ NCTX (R82, R201). -/
def ctxOperand (c : CtxIx) (s : State) : Except ErrCode Context :=
  match s.ctxs[c.toNat]? with
  | some x => .ok x
  | none => .error .ctx

/-- A context that exists and is initialised: E_CTX, then E_UNINIT (R201). -/
def liveOperand (c : CtxIx) (s : State) : Except ErrCode Context :=
  match ctxOperand c s with
  | .ok x => if x.cst = .uninit then .error .uninit else .ok x
  | .error e => .error e

/-- The width code of INIT: E_WIDTH for 0b00 and 0b11 (R85). -/
def widthOperand (wid : BitVec 2) : Except ErrCode Width :=
  match wid.toNat with
  | 1 => .ok .narrow
  | 2 => .ok .wide
  | _ => .error .width

/-- DIGEST_BYTES (R6). -/
def Width.digestBytes : Width → Nat
  | .narrow => 32
  | .wide => 64

/-- The buffer length of FINAL: E_SIZE unless it is exactly the digest's size (R86). -/
def sizeOperand (olen : BitVec 7) (w : Width) : Except ErrCode Unit :=
  if olen.toNat = w.digestBytes then .ok () else .error .size

end Sys2Proof.Machine
end

