-- ==== Sys2Proof/Machine/Ops.lean ====
section
/-! DEFINITION. The operations the commands share: the block procedures of a context
(spec/43_engine_commands.md R160 to R164), error entry and its way back (spec/60_exceptions.md R202,
R203), and the frame every checked command runs in (R165). -/

namespace Sys2Proof.Machine

/-! ### Block procedures of one context -/

/-- IV (R28): 64 × 0x01 for NARROW, 0^64 for WIDE. -/
def iv : Width → Bytes64
  | .narrow => ofBytes fun _ => 0x01
  | .wide => zero64

/-- resetCtx: everything but WID (R160). -/
def Context.fresh (x : Context) : Context :=
  { x with h := iv x.wid, N := zero64, sigma := zero64, buf := [], cst := .empty }

/-- One block into the triple (h, N, sigma): `r` is the reversed block and `bits` what it adds to the
counter. G reads N from before the increment; the three are committed together (R27, R161, R162). -/
def Context.consume (x : Context) (r : Bytes64) (bits : Nat) : Context :=
  { x with
    h := compress x.N x.h r
    N := add512 x.N (be64 bits)
    sigma := add512 x.sigma r }

/-- consumeFull of the 64 bytes `blk` (R161). -/
def Context.consumeFull (x : Context) (blk : List Byte) : Context :=
  x.consume (rev (ofList blk)) 512

/-- The padded final block: the pending bytes, 0x01, zeros (R162). -/
def padBlock (buf : List Byte) : Bytes64 :=
  ofList (buf ++ [0x01] ++ List.replicate (63 - buf.length) 0)

/-- consumeFinal (R162). -/
def Context.consumeFinal (x : Context) : Context :=
  x.consume (rev (padBlock x.buf)) (8 * x.buf.length)

/-- The final h of the closing step: G with a zero counter on N, then on sigma (R163). -/
def Context.closeValue (x : Context) : Bytes64 :=
  compress zero64 (compress zero64 x.h x.N) x.sigma

/-- The bytes the closing step emits: all of rev(h2), or its second half (R163). -/
def Context.close (x : Context) : List Byte :=
  match x.wid with
  | .wide => toList (rev x.closeValue)
  | .narrow => (toList (rev x.closeValue)).drop 32

/-- The digest of what the context has absorbed: consumeFinal, then close (R170). -/
def Context.finish (x : Context) : List Byte := x.consumeFinal.close

/-- ABSORB's effect on its context (R169): the 64th pending byte makes a full block. -/
def Context.absorb (x : Context) (b : Byte) : Context :=
  let buf := x.buf ++ [b]
  if buf.length = Config.blockBytes then
    { x.consumeFull buf with buf := [], cst := .accum }
  else
    { x with buf := buf, cst := .accum }

/-! ### Writes to the state -/

/-- ctx[c] <- x. -/
def State.putCtx (c : CtxIx) (x : Context) (s : State) : State :=
  { s with ctxs := s.ctxs.set c.toNat x }

/-- deliver: the emitted bytes into DIGEST, zeros beyond them, and its tags (R164). -/
def State.deliver (c : CtxIx) (w : Width) (o : List Byte) (s : State) : State :=
  { s with digest := ofList o, dv := true, dwid := some w, dctx := c }

/-! ### Error entry and the way back -/

/-- raise Error(code, info): only the first error is latched (R202). -/
def raise (code : ErrCode) (info : Word) (s : State) : State :=
  if s.err = .none then { s with err := code, errInfo := info } else s

/-- The way back from the error state: ERR and ERRINFO cleared (R203, R172). -/
def acknowledge (s : State) : State :=
  if s.err = .none then s else { s with err := .none, errInfo := 0 }

/-- The frame of a command `w` whose checks and effect are `body` (R165): dropped while an error is
latched (R203), else the effect, or the error of the first check that fails (R202). -/
def command (w : Word) (body : State → Except ErrCode State) (s : State) :
    Host.Outcome State Fault Refusal :=
  if s.err = .none then
    match body s with
    | .ok t => .next t
    | .error code => .next (raise code w s)
  else .next s

end Sys2Proof.Machine
end

