-- ==== Sys2Proof/Machine/Control.lean ====
section
/-! DEFINITION. The commands without a context: NOP (R166) and ERRACK (R172). -/

namespace Sys2Proof.Machine

/-- NOP: nothing (R166), and nothing as well when it is dropped (R203). -/
def execNop (s : State) : Host.Outcome State Fault Refusal := .next s

/-- ERRACK: clears a latched error; without one it does nothing (R172, R203). -/
def execErrack (s : State) : Host.Outcome State Fault Refusal := .next (acknowledge s)

end Sys2Proof.Machine
end

