-- ==== Sys2Proof/Machine/Hashing.lean ====
section
/-! DEFINITION. The commands that hash: ABSORB (R169) and FINAL (R170). -/

namespace Sys2Proof.Machine

/-- Checks and effect of ABSORB (R169). -/
def absorbBody (c : CtxIx) (b : Byte) (s : State) : Except ErrCode State := do
  let x ← liveOperand c s
  return s.putCtx c (x.absorb b)

/-- ABSORB c, b. -/
def execAbsorb (c : CtxIx) (b : Byte) (s : State) : Host.Outcome State Fault Refusal :=
  command (encode (.absorb c b)) (absorbBody c b) s

/-- Checks and effect of FINAL (R170): the digest is delivered and the context reset, WID kept. -/
def finalBody (c : CtxIx) (olen : BitVec 7) (s : State) : Except ErrCode State := do
  let x ← liveOperand c s
  sizeOperand olen x.wid
  return (s.deliver c x.wid x.finish).putCtx c x.fresh

/-- FINAL c, olen. -/
def execFinal (c : CtxIx) (olen : BitVec 7) (s : State) : Host.Outcome State Fault Refusal :=
  command (encode (.final c olen)) (finalBody c olen) s

end Sys2Proof.Machine
end

