-- ==== Sys2Proof/Machine/Lifecycle.lean ====
section
/-! DEFINITION. The commands that set a context up: INIT (R167), RESET (R168), CLONE (R171). -/

namespace Sys2Proof.Machine

/-- Checks and effect of INIT (R167): valid in every CST; the width, then resetCtx. -/
def initBody (c : CtxIx) (wid : BitVec 2) (s : State) : Except ErrCode State := do
  let x ← ctxOperand c s
  let w ← widthOperand wid
  return s.putCtx c (Context.fresh { x with wid := w })

/-- INIT c, wid. -/
def execInit (c : CtxIx) (wid : BitVec 2) (s : State) : Host.Outcome State Fault Refusal :=
  command (encode (.init c wid)) (initBody c wid) s

/-- Checks and effect of RESET (R168): resetCtx, WID kept. -/
def resetBody (c : CtxIx) (s : State) : Except ErrCode State := do
  let x ← liveOperand c s
  return s.putCtx c x.fresh

/-- RESET c. -/
def execReset (c : CtxIx) (s : State) : Host.Outcome State Fault Refusal :=
  command (encode (.reset c)) (resetBody c) s

/-- Checks and effect of CLONE (R171): both contexts exist, the source is initialised; the destination
may be in any state. The copy is by value. -/
def cloneBody (d src : CtxIx) (s : State) : Except ErrCode State := do
  let _ ← ctxOperand d s
  let x ← liveOperand src s
  return s.putCtx d x

/-- CLONE d, s. -/
def execClone (d src : CtxIx) (s : State) : Host.Outcome State Fault Refusal :=
  command (encode (.clone d src)) (cloneBody d src) s

end Sys2Proof.Machine
end

