-- ==== Sys2Proof/Machine/Dispatch.lean ====
section
/-! DEFINITION. One arm per command: its meaning (spec/43_engine_commands.md R165). -/

namespace Sys2Proof.Machine

def exec (i : Instr) (s : State) : Host.Outcome State Fault Refusal :=
  match i with
  | .nop => Sys2Proof.Machine.execNop s
  | .init c wid => Sys2Proof.Machine.execInit c wid s
  | .reset c => Sys2Proof.Machine.execReset c s
  | .absorb c b => Sys2Proof.Machine.execAbsorb c b s
  | .final c olen => Sys2Proof.Machine.execFinal c olen s
  | .clone d src => Sys2Proof.Machine.execClone d src s
  | .errack => Sys2Proof.Machine.execErrack s

end Sys2Proof.Machine
end

