-- ==== Sys2Proof/Machine/Flags.lean ====
section
/-! DEFINITION. The codes of the status fields and the read-only register views made of them
(spec/10_state.md R25, R26, R30 to R32, spec/20_memory.md R57, spec/60_exceptions.md R200). The engine
has no other flags (R35). -/

namespace Sys2Proof.Machine

/-- WID encoding (R25). -/
def Width.code : Width → BitVec 2
  | .narrow => 0b01
  | .wide => 0b10

/-- CST encoding (R26). -/
def Cst.code : Cst → BitVec 2
  | .uninit => 0b00
  | .empty => 0b01
  | .accum => 0b10

/-- Error code (R200). -/
def ErrCode.code : ErrCode → BitVec 4
  | .none => 0
  | .opcode => 1
  | .rsvd => 2
  | .ctx => 3
  | .width => 4
  | .uninit => 5
  | .size => 6
  | .bus => 7

/-- DWID encoding: 0b00 before any FINAL (R29). -/
def dwidCode : Option Width → BitVec 2
  | none => 0b00
  | some w => w.code

/-- NCTXM1 = NCTX − 1, hardwired (R30). -/
def State.nctxM1 (s : State) : BitVec 4 := BitVec.ofNat 4 (s.nctx - 1)

/-- STATUS (R30): the fields from bit 31 down to bit 0. -/
def State.status (s : State) : Word :=
  0#12 ++ s.nctxM1 ++ s.dctx ++ 0#1 ++ dwidCode s.dwid ++ BitVec.ofBool s.dv ++ 0#4 ++ s.err.code

/-- The CTXSTAT word of a context: WID and LEN read 0 while CST = UNINIT (R32). -/
def Context.stat (x : Context) : Word :=
  match x.cst with
  | .uninit => 0
  | .empty | .accum => 0#22 ++ BitVec.ofNat 6 x.buf.length ++ x.wid.code ++ x.cst.code

/-- CTXSTAT[i]: 0 for i ≥ NCTX (R32). -/
def State.ctxstat (s : State) (i : Nat) : Word :=
  match s.ctxs[i]? with
  | some x => x.stat
  | none => 0

/-- DIGEST_W[k]: DIGEST bytes 4k .. 4k+3, little-endian (R57). -/
def State.digestW (s : State) (k : Nat) : Word :=
  byte s.digest (4 * k + 3) ++ byte s.digest (4 * k + 2) ++ byte s.digest (4 * k + 1) ++
    byte s.digest (4 * k)

end Sys2Proof.Machine
end

