-- ==== Sys2Proof/Machine/Bus.lean ====
section
/-! DEFINITION. The register window (spec/20_memory.md R50 to R57), delivery of a command word (R165),
and hardware reset (spec/70_reset_and_hazards.md R230). -/

namespace Sys2Proof.Machine

/-- The word a read of byte offset `off` of the window answers (R52, R53, R55): misaligned and reserved
offsets and CMD answer 0. -/
def State.readWord (s : State) (off : Nat) : Word :=
  if off % 4 ≠ 0 then 0
  else if off = 0x004 then s.status
  else if off = 0x008 then s.errInfo
  else if 0x010 ≤ off ∧ off < 0x050 then s.ctxstat ((off - 0x010) / 4)
  else if 0x100 ≤ off ∧ off < 0x140 then s.digestW ((off - 0x100) / 4)
  else 0

/-- The error a rejected word raises (R200). -/
def decodeErrorCode : DecodeError → ErrCode
  | .illegalOpcode => .opcode
  | .reservedBits => .rsvd

/-- execute_command (R165) of any word: a word that is a command runs as it; any other word raises its
error, or is dropped while an error is latched (R203). -/
def executeCommand (w : Word) (s : State) : Host.Outcome State Fault Refusal :=
  match decode w with
  | .ok i => exec i s
  | .error e => .next (raise (decodeErrorCode e) w s)

/-- A write of `v` to byte offset `off` with the given byte lanes (R53, R54, R56). -/
def writeWord (off : Nat) (lanes : BitVec 4) (v : Word) (s : State) :
    Host.Outcome State Fault Refusal :=
  if off % 4 ≠ 0 ∨ lanes ≠ 0b1111#4 then .next (raise .bus (BitVec.ofNat 32 off) s)
  else if off = 0x000 then executeCommand v s
  else .next (raise .bus (BitVec.ofNat 32 off) s)

/-- A read: the word is answered whatever the lanes, and nothing of the engine changes (R54, R55). -/
def answerRead (off : Nat) (s : State) : State :=
  { s with replies := s.readWord off :: s.replies }

/-- The byte offset of a host address, when the address is in the window (R51). -/
def State.offset? (s : State) (addr : Nat) : Option Nat :=
  if s.base ≤ addr ∧ addr < s.base + Config.windowBytes then some (addr - s.base) else none

/-- Hardware reset: every piece of state to its reset value (R38, R230). NCTX and BASE are hardwired;
what the host has not sent yet and what it has read are not the engine's. -/
def hardwareReset (s : State) : State :=
  { State.resetWith s.nctx s.baseUnit with pending := s.pending, replies := s.replies }

/-- One event taken by the engine (R62). -/
def takeEvent (e : BusEvent) (s : State) : Host.Outcome State Fault Refusal :=
  match e with
  | .read addr _ =>
    match s.offset? addr with
    | some off => .next (answerRead off s)
    | none => .refused .outsideWindow
  | .write addr lanes v =>
    match s.offset? addr with
    | some off => writeWord off lanes v s
    | none => .refused .outsideWindow
  | .hwReset => .next (hardwareReset s)

/-- The aligned full-word write that delivers `w` as a command word (R56). -/
def cmdWrite (s : State) (w : Word) : BusEvent := .write s.base 0b1111#4 w

/-- The host has issued the command words `ws`, after what it has issued before (R34). -/
def State.issue (ws : List Word) (s : State) : State :=
  { s with pending := s.pending ++ ws.map (cmdWrite s) }

/-- Sequence of commands run one after the other, stopping at the first that is no next state. -/
def execAll : List Instr → State → Host.Outcome State Fault Refusal
  | [], s => .next s
  | i :: is, s =>
    match exec i s with
    | .next t => execAll is t
    | .fault f => .fault f
    | .refused r => .refused r

end Sys2Proof.Machine
end

