-- ==== Sys2Proof/Machine/Assembler.lean ====
section
/-! DEFINITION. The assembler (spec/30_encoding.md R92) and its pseudo-instructions (R93): from the text
of a line to command words. Nothing here is hardware; it is the spec's way of writing programs down. -/

namespace Sys2Proof.Machine

/-! ### Lines with their numbers (R92, R93) -/

/-- A line of a program. Numbers are what the text says, in range or not. -/
inductive AsmLine where
  | nop
  | init (c width : Nat)
  | reset (c : Nat)
  | absorb (c b : Nat)
  | final (c olen : Nat)
  | clone (d s : Nat)
  | errack
  /-- `.word v`: a raw word. -/
  | word (v : Nat)
  /-- `ABSORBS c, data`. -/
  | absorbs (c : Nat) (data : List Byte)
  /-- `HASH c, w, data`. -/
  | hash (c width : Nat) (data : List Byte)
  deriving DecidableEq, Repr

/-- A value in a field of `n` bits; refused when it does not fit (R92). -/
def fits (n v : Nat) : Option (BitVec n) :=
  if v < 2 ^ n then some (BitVec.ofNat n v) else none

/-- The width operand of INIT: 256 or 512 (R92). -/
def asmWidth (v : Nat) : Option (BitVec 2) :=
  if v = 256 then some 1 else if v = 512 then some 2 else none

/-- One ABSORB per byte (R93). -/
def absorbCommands (c : CtxIx) (data : List Byte) : List Instr := data.map (Instr.absorb c)

/-- The commands of `HASH c, w, data` (R93). -/
def hashCommands (c : CtxIx) (wid : BitVec 2) (olen : BitVec 7) (data : List Byte) : List Instr :=
  [.init c wid] ++ absorbCommands c data ++ [.final c olen]

/-- The words a line stands for; none when the assembler refuses it (R92, R93). -/
def assemble : AsmLine → Option (List Word)
  | .nop => some [encode .nop]
  | .init c v => do return [encode (.init (← fits 4 c) (← asmWidth v))]
  | .reset c => do return [encode (.reset (← fits 4 c))]
  | .absorb c b => do return [encode (.absorb (← fits 4 c) (← fits 8 b))]
  | .final c olen => do return [encode (.final (← fits 4 c) (← fits 7 olen))]
  | .clone d s => do return [encode (.clone (← fits 4 d) (← fits 4 s))]
  | .errack => some [encode .errack]
  | .word v => do return [← fits 32 v]
  | .absorbs c data => do return (absorbCommands (← fits 4 c) data).map encode
  | .hash c v data => do
    return (hashCommands (← fits 4 c) (← asmWidth v) (← fits 7 (v / 8)) data).map encode

/-- The words of a program, line after line; none when a line is refused. -/
def assembleAll : List AsmLine → Option (List Word)
  | [] => some []
  | l :: ls => do return (← assemble l) ++ (← assembleAll ls)

/-! ### Text (R92)

What R92 does not say of the text is the model's reading (log 11). -/

/-- UTF-8 encoding of one character, by its code point (R93). -/
def utf8 (c : Char) : List Byte :=
  let n := c.toNat
  let tail (k : Nat) : Byte := BitVec.ofNat 8 (0x80 + n / 2 ^ k % 64)
  if n < 0x80 then [BitVec.ofNat 8 n]
  else if n < 0x800 then [BitVec.ofNat 8 (0xC0 + n / 2 ^ 6), tail 0]
  else if n < 0x10000 then [BitVec.ofNat 8 (0xE0 + n / 2 ^ 12), tail 6, tail 0]
  else [BitVec.ofNat 8 (0xF0 + n / 2 ^ 18), tail 12, tail 6, tail 0]

/-- A token of a line. -/
inductive Tok where
  /-- A mnemonic. -/
  | name (w : List Char)
  /-- A decimal number. -/
  | dec (v : Nat)
  /-- The digits after `0x`. -/
  | hex (ds : List Nat)
  /-- A quoted text. -/
  | text (cs : List Char)
  | comma
  deriving DecidableEq, Repr

/-- Value of a hexadecimal digit. -/
def hexDigit (c : Char) : Option Nat :=
  if '0' ≤ c ∧ c ≤ '9' then some (c.toNat - 48)
  else if 'a' ≤ c ∧ c ≤ 'f' then some (c.toNat - 87)
  else if 'A' ≤ c ∧ c ≤ 'F' then some (c.toNat - 55)
  else none

/-- All the characters as digits of a base up to 16; none when one is no such digit. -/
def digits (base : Nat) : List Char → Option (List Nat)
  | [] => some []
  | c :: cs =>
    match hexDigit c, digits base cs with
    | some d, some ds => if d < base then some (d :: ds) else none
    | _, _ => none

/-- The number with these digits. -/
def number (base : Nat) (ds : List Nat) : Nat := ds.foldl (fun v d => base * v + d) 0

/-- A word of a line: `0x` and digits, decimal digits, or a name. -/
def wordToken : List Char → Tok
  | '0' :: 'x' :: cs =>
    match digits 16 cs with
    | some ds => .hex ds
    | none => .name ('0' :: 'x' :: cs)
  | cs =>
    match digits 10 cs with
    | some ds => .dec (number 10 ds)
    | none => .name cs

/-- White space between tokens. -/
def isBlank (c : Char) : Bool := c == ' ' || c == '\t'

/-- A character that a word of a line goes on with. -/
def inWord (c : Char) : Bool := !(isBlank c || c == ',' || c == ';' || c == '"')

/-- The tokens of a line, up to its comment; none for a text without its closing quote. The first
argument is fuel: one more than the length of the line is enough. -/
def tokens : Nat → List Char → Option (List Tok)
  | 0, _ => none
  | _ + 1, [] => some []
  | n + 1, c :: cs =>
    if isBlank c then tokens n cs
    else if c = ';' then some []
    else if c = ',' then do return .comma :: (← tokens n cs)
    else if c = '"' then
      match cs.dropWhile (· != '"') with
      | [] => none
      | _ :: rest => do return .text (cs.takeWhile (· != '"')) :: (← tokens n rest)
    else do return wordToken (c :: cs.takeWhile inWord) :: (← tokens n (cs.dropWhile inWord))

/-- A numeric operand: decimal, or hexadecimal with its prefix and at least one digit. -/
def numOperand : Tok → Option Nat
  | .dec v => some v
  | .hex (d :: ds) => some (number 16 (d :: ds))
  | .hex [] | .name _ | .text _ | .comma => none

/-- Bytes from hexadecimal digit pairs; none for an odd digit. -/
def hexPairs : List Nat → Option (List Byte)
  | [] => some []
  | [_] => none
  | a :: b :: ds => do return BitVec.ofNat 8 (16 * a + b) :: (← hexPairs ds)

/-- The data operand of ABSORBS and HASH: a quoted text, hexadecimal pairs, or nothing (R93). -/
def dataOperand : List Tok → Option (List Byte)
  | [] => some []
  | [.text cs] => some (cs.flatMap utf8)
  | [.hex ds] => hexPairs ds
  | _ => none

/-- The operands of a mnemonic (R92, R93). -/
def operands (name : List Char) (ops : List Tok) : Option AsmLine :=
  if name = ['N', 'O', 'P'] then match ops with | [] => some .nop | _ => none
  else if name = ['E', 'R', 'R', 'A', 'C', 'K'] then
    match ops with | [] => some .errack | _ => none
  else if name = ['R', 'E', 'S', 'E', 'T'] then
    match ops with | [c] => do return .reset (← numOperand c) | _ => none
  else if name = ['I', 'N', 'I', 'T'] then
    match ops with
    | [c, .comma, v] => do return .init (← numOperand c) (← numOperand v)
    | _ => none
  else if name = ['A', 'B', 'S', 'O', 'R', 'B'] then
    match ops with
    | [c, .comma, b] => do return .absorb (← numOperand c) (← numOperand b)
    | _ => none
  else if name = ['F', 'I', 'N', 'A', 'L'] then
    match ops with
    | [c, .comma, v] => do return .final (← numOperand c) (← numOperand v)
    | _ => none
  else if name = ['C', 'L', 'O', 'N', 'E'] then
    match ops with
    | [d, .comma, s] => do return .clone (← numOperand d) (← numOperand s)
    | _ => none
  else if name = ['.', 'w', 'o', 'r', 'd'] then
    match ops with | [v] => do return .word (← numOperand v) | _ => none
  else if name = ['A', 'B', 'S', 'O', 'R', 'B', 'S'] then
    match ops with
    | c :: .comma :: rest => do return .absorbs (← numOperand c) (← dataOperand rest)
    | _ => none
  else if name = ['H', 'A', 'S', 'H'] then
    match ops with
    | c :: .comma :: v :: .comma :: rest =>
      do return .hash (← numOperand c) (← numOperand v) (← dataOperand rest)
    | _ => none
  else none

/-- A line of text: none when it is refused, `some none` for a line without a command. -/
def parseLine (line : List Char) : Option (Option AsmLine) :=
  match tokens (line.length + 1) line with
  | some [] => some none
  | some (.name w :: ops) => do return some (← operands w ops)
  | _ => none

/-- The words of a program text, given as its lines; none when a line is refused. -/
def assembleText : List (List Char) → Option (List Word)
  | [] => some []
  | l :: ls => do
    let ws ← match ← parseLine l with
      | some a => assemble a
      | none => some []
    return ws ++ (← assembleText ls)

end Sys2Proof.Machine
end

