-- ==== Sys2Proof/Machine/Check.lean ====
section
/-! DEFINITION. The spec's own form of a command word's execution, written line by line from
spec/60_exceptions.md R201, R203 and spec/43_engine_commands.md R165: one check of the whole word, then
the case on its opcode. The machine itself decodes first and checks operands per command
(Machine/Operands.lean); a statement says that the two agree on every word. -/

namespace Sys2Proof.Machine

/-- `ctx[c].CST == UNINIT`, of a context that exists. -/
def isUninit (c : CtxIx) (s : State) : Bool :=
  match s.ctxs[c.toNat]? with
  | some x => x.cst == .uninit
  | none => false

/-- `w[6:0] != (32 if ctx[c].WID == NARROW else 64)`, of a context that exists. -/
def wrongSize (c : CtxIx) (olen : BitVec 7) (s : State) : Bool :=
  match s.ctxs[c.toNat]? with
  | some x => olen.toNat != (if x.wid = .narrow then 32 else 64)
  | none => false

/-- check(w) (R201). -/
def checkWord (w : Word) (s : State) : ErrCode :=
  let op := (opField w).toNat
  let c := ctxField w
  let src := srcField w
  if op ≥ 0x7 then .opcode
  else if w &&& reservedMask (opField w) ≠ 0 then .rsvd
  else if (op = 1 ∨ op = 2 ∨ op = 3 ∨ op = 4 ∨ op = 5) ∧ c.toNat ≥ s.nctx then .ctx
  else if op = 5 ∧ src.toNat ≥ s.nctx then .ctx
  else if op = 1 ∧ ¬(widField w = 0b01#2 ∨ widField w = 0b10#2) then .width
  else if (op = 2 ∨ op = 3 ∨ op = 4) ∧ isUninit c s then .uninit
  else if op = 5 ∧ isUninit src s then .uninit
  else if op = 4 ∧ wrongSize c (olenField w) s then .size
  else .none

/-- ack_or_ignore(w) (R203): only the exact ERRACK word acts. -/
def ackOrIgnore (w : Word) (s : State) : State :=
  if w = 0x60000000#32 then { s with err := .none, errInfo := 0 } else s

/-- A change of one context, where it exists. -/
def onContext (c : CtxIx) (f : Context → Context) (s : State) : State :=
  match s.ctxs[c.toNat]? with
  | some x => s.putCtx c (f x)
  | none => s

/-- The case on `w[31:28]` of R165: the pseudocode of R166 to R172 for a word that check accepts. -/
def acceptedEffect (w : Word) (s : State) : State :=
  let c := ctxField w
  match (opField w).toNat with
  | 1 => onContext c (fun x =>
      Context.fresh { x with wid := if widField w = 0b01#2 then .narrow else .wide }) s
  | 2 => onContext c Context.fresh s
  | 3 => onContext c (fun x => x.absorb (dataField w)) s
  | 4 =>
    match s.ctxs[c.toNat]? with
    | some x => onContext c Context.fresh (s.deliver c x.wid x.finish)
    | none => s
  | 5 =>
    match s.ctxs[(srcField w).toNat]? with
    | some x => s.putCtx c x
    | none => s
  | _ => s

/-- execute_command(w) as R165 writes it. -/
def specCommand (w : Word) (s : State) : State :=
  if s.err ≠ .none then ackOrIgnore w s
  else if checkWord w s ≠ .none then raise (checkWord w s) w s
  else acceptedEffect w s

end Sys2Proof.Machine
end

