-- ==== Sys2Proof/Machine/OneShot.lean ====
section
/-! DEFINITION. The digest of a whole message, written without buffer and without increments: block k of
a message is its bytes 64k .. 64k+63 (spec/43_engine_commands.md R173), the counter before it is 512·k,
and the counter at the end is the length of the message in bits (spec/10_state.md R22). The engine does
not use it; statements compare the engine's commands with it. -/

namespace Sys2Proof.Machine

/-- blockRev of block k (R60, R161). -/
def messageBlock (msg : List Byte) (k : Nat) : Bytes64 :=
  rev (ofList ((msg.drop (64 * k)).take 64))

/-- The chaining value after the first k full blocks (R161). -/
def chainAfter (w : Width) (msg : List Byte) : Nat → Bytes64
  | 0 => iv w
  | k + 1 => compress (be64 (512 * k)) (chainAfter w msg k) (messageBlock msg k)

/-- The checksum of the first k full blocks (R23). -/
def checksumOf (msg : List Byte) : Nat → Bytes64
  | 0 => zero64
  | k + 1 => add512 (checksumOf msg k) (messageBlock msg k)

/-- How many full blocks a message has. -/
def fullBlocks (msg : List Byte) : Nat := msg.length / 64

/-- The bytes after the last full block (R173). -/
def remainder (msg : List Byte) : List Byte := msg.drop (64 * fullBlocks msg)

/-- The context of width `w` that has absorbed `msg` since its last reset (R173). -/
def streamContext (w : Width) (msg : List Byte) : Context :=
  { cst := if msg = [] then .empty else .accum
    wid := w
    h := chainAfter w msg (fullBlocks msg)
    N := be64 (512 * fullBlocks msg)
    sigma := checksumOf msg (fullBlocks msg)
    buf := remainder msg }

/-- The digest of `msg`: final block, closing step, truncation (R162, R163). -/
def oneShotDigest (w : Width) (msg : List Byte) : List Byte :=
  let k := fullBlocks msg
  let r := rev (padBlock (remainder msg))
  let h := compress (be64 (512 * k)) (chainAfter w msg k) r
  let h1 := compress zero64 h (be64 (8 * msg.length))
  let h2 := compress zero64 h1 (add512 (checksumOf msg k) r)
  match w with
  | .wide => toList (rev h2)
  | .narrow => (toList (rev h2)).drop 32

end Sys2Proof.Machine
end

