-- ==== Sys2Proof/WellFormed.lean ====
section
/-! DEFINITION. Which commands an assembler writes (spec/30_encoding.md R85, R92): the operands are in
range by their types, so what is left to check is the width of INIT and that the contexts exist. -/

namespace Sys2Proof

/-- INIT carries one of the two legal width codes, 0b01 or 0b10 (R85, R92). -/
def Instr.widthLegal : Instr → Bool
  | .init _ wid => wid == 1#2 || wid == 2#2
  | .nop | .reset _ | .absorb _ _ | .final _ _ | .clone _ _ | .errack => true

/-- Every context the command names exists on an engine with `n` contexts (R82, R83). -/
def Instr.contextsExist (n : Nat) : Instr → Bool
  | .nop | .errack => true
  | .init c _ | .reset c | .absorb c _ | .final c _ => decide (c.toNat < n)
  | .clone d s => decide (d.toNat < n) && decide (s.toNat < n)

/-- Well-formed for an engine with `n` contexts. -/
def Instr.wellFormed (n : Nat) (i : Instr) : Bool :=
  i.widthLegal && i.contextsExist n

end Sys2Proof
end

