-- ==== Sys2Proof/Safety.lean ====
section
/-! DEFINITION. What the states a run can reach satisfy, what a host can tell apart, and the words in
which the statements speak of commands. -/

namespace Sys2Proof.Machine

/-! ### Invariants -/

/-- What holds of a context between commands (R24, R26, R160, R22). -/
structure Context.Inv (x : Context) : Prop where
  /-- LEN is 0..63 (R24). -/
  len : x.buf.length ≤ 63
  /-- An UNINIT context holds no byte (R38). -/
  uninit : x.cst = .uninit → x.buf = []
  /-- An EMPTY context holds what resetCtx leaves (R160). -/
  empty : x.cst = .empty → x = x.fresh
  /-- Only full blocks have been counted (R161). -/
  counted : x.cst = .accum → x.N.toNat % 512 = 0

/-- What holds of the state between events (R7, R20, R29, R31, R164). -/
structure State.Inv (s : State) : Prop where
  /-- There is at least one context (R7). -/
  some_ctx : 1 ≤ s.nctx
  /-- There are at most 16 (R7). -/
  max_ctx : s.nctx ≤ 16
  /-- Each context keeps its invariant. -/
  ctxs : ∀ x ∈ s.ctxs, x.Inv
  /-- ERRINFO is 0 whenever ERR = 0 (R31). -/
  errInfo : s.err = .none → s.errInfo = 0
  /-- DWID is 0b00 exactly before any FINAL (R29). -/
  tagged : s.dwid.isSome = s.dv
  /-- Before any FINAL, DCTX and DIGEST have their reset values (R38). -/
  untouched : s.dv = false → s.dctx = 0 ∧ s.digest = 0
  /-- DCTX names a context (R29). -/
  owner : s.dctx.toNat < s.nctx
  /-- A narrow digest leaves bytes 32..63 zero (R164). -/
  narrow : s.dwid = some .narrow → ∀ i, 32 ≤ i → i < 64 → byte s.digest i = 0

/-- ERRINFO records what raised ERR (the last column of R200): the command word for the codes 1 to 6,
the byte offset for E_BUS. -/
def errInfoSpells (code : ErrCode) (info : Word) (n : Nat) : Prop :=
  match code with
  | .none => info = 0
  | .opcode => 0x7 ≤ (opField info).toNat
  | .rsvd => (opField info).toNat < 0x7 ∧ info &&& reservedMask (opField info) ≠ 0
  | .ctx => ∃ i, decode info = .ok i ∧ i.contextsExist n = false
  | .width => ∃ c wid, decode info = .ok (.init c wid) ∧ (wid = 0b00#2 ∨ wid = 0b11#2)
  | .uninit => ∃ i, decode info = .ok i ∧ i.contextsExist n = true ∧
      ((∃ c, i = .reset c) ∨ (∃ c b, i = .absorb c b) ∨ (∃ c olen, i = .final c olen) ∨
        ∃ d src, i = .clone d src)
  | .size => ∃ c olen, decode info = .ok (.final c olen) ∧ c.toNat < n
  | .bus => info.toNat < Config.windowBytes

/-- The contexts other than `c` are the same in both states (R20). -/
def sameOthers (c : CtxIx) (s t : State) : Prop :=
  t.nctx = s.nctx ∧ ∀ j, j ≠ c.toNat → t.ctxs[j]? = s.ctxs[j]?

/-- The registers only a FINAL writes are the same in both states (R29). -/
def sameDigest (s t : State) : Prop :=
  t.dv = s.dv ∧ t.dwid = s.dwid ∧ t.dctx = s.dctx ∧ t.digest = s.digest

/-- ERR and ERRINFO are the same in both states. -/
def sameError (s t : State) : Prop := t.err = s.err ∧ t.errInfo = s.errInfo

/-- The bus side is the same in both states: the strap BASE, what the host still has to send, and what
it has read. -/
def sameBus (s t : State) : Prop :=
  t.baseUnit = s.baseUnit ∧ t.pending = s.pending ∧ t.replies = s.replies

/-! ### What a host can tell apart -/

/-- Two contexts that no access can tell apart: equal, or both UNINIT (U1, U2, U3). -/
def Context.indist (x y : Context) : Prop := (x.cst = .uninit ∧ y.cst = .uninit) ∨ x = y

/-- Two states that differ at most in what is unspecified in UNINIT contexts (R38, U1, U2). -/
def State.indist (s t : State) : Prop :=
  t = { s with ctxs := t.ctxs } ∧ t.nctx = s.nctx ∧
    ∀ (i : Nat) (x y : Context), s.ctxs[i]? = some x → t.ctxs[i]? = some y → x.indist y

/-! ### Commands and states -/

/-- The context a command writes, if any. -/
def targetOf : Instr → Option CtxIx
  | .nop | .errack => none
  | .init c _ | .reset c | .absorb c _ | .final c _ => some c
  | .clone d _ => some d

/-- The contexts a command names (R82, R83). -/
def contextsOf : Instr → List CtxIx
  | .nop | .errack => []
  | .init c _ | .reset c | .absorb c _ | .final c _ => [c]
  | .clone d src => [d, src]

/-- FINAL, the one command that writes the shared registers DIGEST, DV, DWID and DCTX (R29). -/
def isFinal : Instr → Bool
  | .final _ _ => true
  | .nop | .init _ _ | .reset _ | .absorb _ _ | .clone _ _ | .errack => false

/-- The word raises `code` and does nothing else (R202). -/
def rejects (w : Word) (code : ErrCode) (s : State) : Prop :=
  executeCommand w s = .next { s with err := code, errInfo := w }

/-- The state accepts the command: no error is latched and check(enc(i)) is E_NONE (R165, R201). -/
def accepts (s : State) (i : Instr) : Prop :=
  s.err = .none ∧ checkWord (encode i) s = .none

/-- The event is no access, or an access to an address of the window (R51). -/
def inWindow (s : State) : BusEvent → Prop
  | .read addr _ | .write addr _ _ => s.base ≤ addr ∧ addr < s.base + Config.windowBytes
  | .hwReset => True

end Sys2Proof.Machine
end

