-- ==== Sys2Proof/Certificates/Slice0/Obligations.lean ====
section
/-! DEFINITION. The statements for the provers. Each docstring names the rules of spec/ it formalises.
A premise `State.Inv` or `Context.Inv` rules out states that no run reaches; that every step keeps the
invariant is a statement of its own. -/

open Sys2Proof Sys2Proof.Machine

/-! ### Reset -/

/-- The reset values of R38, whatever the number of contexts and BASE. -/
def Obligations.ResetStateHoldsTheResetValues : Prop :=
  ∀ n u : Nat,
    (State.resetWith n u).nctx = n ∧
    (∀ x ∈ (State.resetWith n u).ctxs, x.cst = .uninit ∧ x.buf = []) ∧
    (State.resetWith n u).err = .none ∧ (State.resetWith n u).errInfo = 0 ∧
    (State.resetWith n u).dv = false ∧ (State.resetWith n u).dwid = none ∧
    (State.resetWith n u).dctx = 0 ∧ (State.resetWith n u).digest = 0 ∧
    (State.resetWith n u).nctxM1 = BitVec.ofNat 4 (n - 1)

/-- R230: a pulse of the reset input takes any state to the reset values; NCTX and BASE are hardwired. -/
def Obligations.HardwareResetRestoresTheResetValues : Prop :=
  ∀ (s : State) (rest : List BusEvent), s.pending = .hwReset :: rest →
    ∃ t, step s = .next t ∧ t.nctx = s.nctx ∧
      (∀ x ∈ t.ctxs, x.cst = .uninit ∧ x.buf = []) ∧
      t.err = .none ∧ t.errInfo = 0 ∧ t.dv = false ∧ t.dwid = none ∧ t.dctx = 0 ∧ t.digest = 0 ∧
      t.baseUnit = s.baseUnit ∧ t.pending = rest ∧ t.replies = s.replies

/-- R38 with R30, R32, R52: after reset every offset of the window reads 0 but STATUS, which shows
NCTX − 1. -/
def Obligations.AfterResetOnlyNctxReadsNonzero : Prop :=
  ∀ n u off : Nat, 1 ≤ n → n ≤ 16 → off < 0x200 →
    (State.resetWith n u).readWord off =
      if off = 0x004 then BitVec.ofNat 32 ((n - 1) * 2 ^ 16) else 0

/-! ### Encoding -/

/-- R80, R88: words written out bit by bit from the encodings of the opcode table. -/
def Obligations.WordsOfTheOpcodeTableDecode : Prop :=
  decode 0b00000000000000000000000000000000#32 = .ok .nop ∧
  decode 0b00010011000000000000000000000010#32 = .ok (.init 3 0b10) ∧
  decode 0b00101111000000000000000000000000#32 = .ok (.reset 15) ∧
  decode 0b00110101000000000000000010000001#32 = .ok (.absorb 5 0x81) ∧
  decode 0b01000001000000000000000001000000#32 = .ok (.final 1 64) ∧
  decode 0b01010010100100000000000000000000#32 = .ok (.clone 2 9) ∧
  decode 0b01100000000000000000000000000000#32 = .ok .errack

/-- R91: the decoder gives back every command from its encoding. -/
def Obligations.DecodeOfEncodeIsTheCommand : Prop :=
  ∀ i : Instr, decode (encode i) = .ok i

/-- R87, R89, R91: a word that decodes is the encoding of its command, so no bit of it is ignored. -/
def Obligations.DecodedWordIsTheEncoding : Prop :=
  ∀ (w : Word) (i : Instr), decode w = .ok i → encode i = w

/-- R87: the reserved masks, and that a word with a reserved bit set raises E_RSVD and executes
nothing. -/
def Obligations.ReservedBitsRaiseERsvd : Prop :=
  ∀ (w : Word) (s : State), s.err = .none →
    ((opField w = 0x0 ∧ w &&& 0x0FFFFFFF ≠ 0) ∨ (opField w = 0x1 ∧ w &&& 0x00FFFFFC ≠ 0) ∨
     (opField w = 0x2 ∧ w &&& 0x00FFFFFF ≠ 0) ∨ (opField w = 0x3 ∧ w &&& 0x00FFFF00 ≠ 0) ∨
     (opField w = 0x4 ∧ w &&& 0x00FFFF80 ≠ 0) ∨ (opField w = 0x5 ∧ w &&& 0x000FFFFF ≠ 0) ∨
     (opField w = 0x6 ∧ w &&& 0x0FFFFFFF ≠ 0)) →
    rejects w .rsvd s

/-- R89: the opcodes 0x7..0xF raise E_OPCODE and execute nothing; every other word is either the one
encoding of a command or raises E_RSVD; the all-zero word is NOP. -/
def Obligations.EveryWordIsACommandOrRaises : Prop :=
  ∀ (w : Word) (s : State), s.err = .none →
    (0x7 ≤ (opField w).toNat → rejects w .opcode s) ∧
    ((opField w).toNat < 0x7 → rejects w .rsvd s ∨ ∃ i, encode i = w ∧ executeCommand w s = exec i s) ∧
    executeCommand 0x00000000 s = .next s

/-! ### Execution of a command word -/

/-- R165 with R201 and R203: executing any word in any state is what the spec's own pseudocode says
(`specCommand`, written from those rules). -/
def Obligations.ExecutionFollowsTheSpecsPseudocode : Prop :=
  ∀ (w : Word) (s : State), executeCommand w s = .next (specCommand w s)

/-- When the host's next access writes to CMD a word that decodes to `i`, the step is exec of `i` with
that access taken from the queue; `withFetchWord` sets exactly that up. -/
def Obligations.StepRunsTheDecodedCommand : Prop :=
  (∀ (s : State) (w : Word) (i : Instr) (rest : List BusEvent),
    s.pending = .write s.base 0b1111#4 w :: rest → decode w = .ok i →
    step s = exec i { s with pending := rest }) ∧
  (∀ (s : State) (w : Nat) (i : Instr), decode (BitVec.ofNat 32 w) = .ok i →
    step (s.withFetchWord 32 w) = exec i s)

/-- R62, R63: commands issued together run one after the other, in the order of issue. -/
def Obligations.IssuedCommandsRunInOrder : Prop :=
  ∀ (s : State) (is : List Instr), s.pending = [] →
    Host.Core.run Sys2Proof.core is.length (s.issue (is.map encode)) = execAll is s

/-- R205: every command completes, in every state. -/
def Obligations.EveryCommandAnswersANextState : Prop :=
  ∀ (i : Instr) (s : State), ∃ t, exec i s = .next t

/-- R166: NOP does nothing in any state; its word is 0, and with a low bit set the word raises E_RSVD. -/
def Obligations.NopChangesNothing : Prop :=
  (∀ s : State, exec .nop s = .next s) ∧ encode .nop = 0x00000000 ∧
  (∀ (w : Word) (s : State), s.err = .none → opField w = 0x0 → w.extractLsb' 0 28 ≠ 0 →
    rejects w .rsvd s)

/-- R167 with R160 and R28: INIT of an existing context, in any CST, sets the width and resets the
context, and changes nothing else; otherwise it raises its error. -/
def Obligations.InitConfiguresTheContext : Prop :=
  (∀ (s : State) (c : CtxIx) (wid : BitVec 2) (w : Width), s.err = .none → c.toNat < s.nctx →
    (wid = 0b01#2 ∧ w = .narrow) ∨ (wid = 0b10#2 ∧ w = .wide) →
    exec (.init c wid) s =
      .next { s with
        ctxs := s.ctxs.set c.toNat
          { cst := .empty, wid := w, h := iv w, N := 0, sigma := 0, buf := [] } }) ∧
  (∀ (s : State) (c : CtxIx) (wid : BitVec 2), s.err = .none →
    (s.nctx ≤ c.toNat → rejects (encode (.init c wid)) .ctx s) ∧
    (c.toNat < s.nctx → wid = 0b00#2 ∨ wid = 0b11#2 → rejects (encode (.init c wid)) .width s)) ∧
  (∀ (s : State) (w : Word), s.err = .none → opField w = 0x1 → w.extractLsb' 2 22 ≠ 0 →
    rejects w .rsvd s) ∧
  (∀ i, i < 64 → byte (iv .narrow) i = 0x01 ∧ byte (iv .wide) i = 0x00) ∧
  (∀ (c : CtxIx) (wid : BitVec 2), opField (encode (.init c wid)) = 0x1 ∧
    ctxField (encode (.init c wid)) = c ∧ widField (encode (.init c wid)) = wid ∧
    (encode (.init c wid)).extractLsb' 2 22 = 0)

/-- R168 with R160: RESET of an initialised context gives it the values of INIT with its own width, and
changes nothing else; on an EMPTY context it changes nothing; otherwise it raises its error. -/
def Obligations.ResetEmptiesTheContext : Prop :=
  (∀ (s : State) (c : CtxIx) (x : Context), s.err = .none → s.ctxs[c.toNat]? = some x →
    x.cst ≠ .uninit →
    exec (.reset c) s =
      .next { s with
        ctxs := s.ctxs.set c.toNat
          { cst := .empty, wid := x.wid, h := iv x.wid, N := 0, sigma := 0, buf := [] } }) ∧
  (∀ (s : State) (c : CtxIx) (x : Context), s.err = .none → s.ctxs[c.toNat]? = some x →
    x.Inv → x.cst = .empty → exec (.reset c) s = .next s) ∧
  (∀ (s : State) (c : CtxIx), s.err = .none →
    (s.nctx ≤ c.toNat → rejects (encode (.reset c)) .ctx s) ∧
    (∀ x, s.ctxs[c.toNat]? = some x → x.cst = .uninit → rejects (encode (.reset c)) .uninit s)) ∧
  (∀ (s : State) (w : Word), s.err = .none → opField w = 0x2 → w.extractLsb' 0 24 ≠ 0 →
    rejects w .rsvd s) ∧
  (∀ c : CtxIx, opField (encode (.reset c)) = 0x2 ∧ ctxField (encode (.reset c)) = c ∧
    (encode (.reset c)).extractLsb' 0 24 = 0)

/-- R169 with R161: ABSORB appends the byte; when it is the 64th, the block is consumed in the same
command: h, N and sigma from their values before, the block reversed. Nothing else changes; otherwise
it raises its error. -/
def Obligations.AbsorbAppendsOrConsumes : Prop :=
  (∀ (s : State) (c : CtxIx) (b : Byte) (x : Context), s.err = .none →
    s.ctxs[c.toNat]? = some x → x.cst ≠ .uninit → x.buf.length < 63 →
    exec (.absorb c b) s =
      .next { s with ctxs := s.ctxs.set c.toNat { x with buf := x.buf ++ [b], cst := .accum } }) ∧
  (∀ (s : State) (c : CtxIx) (b : Byte) (x : Context), s.err = .none →
    s.ctxs[c.toNat]? = some x → x.cst ≠ .uninit → x.buf.length = 63 →
    exec (.absorb c b) s =
      .next { s with
        ctxs := s.ctxs.set c.toNat
          { cst := .accum
            wid := x.wid
            h := compress x.N x.h (rev (ofList (x.buf ++ [b])))
            N := add512 x.N (be64 512)
            sigma := add512 x.sigma (rev (ofList (x.buf ++ [b])))
            buf := [] } }) ∧
  (∀ (s : State) (c : CtxIx) (b : Byte), s.err = .none →
    (s.nctx ≤ c.toNat → rejects (encode (.absorb c b)) .ctx s) ∧
    (∀ x, s.ctxs[c.toNat]? = some x → x.cst = .uninit → rejects (encode (.absorb c b)) .uninit s)) ∧
  (∀ (s : State) (w : Word), s.err = .none → opField w = 0x3 → w.extractLsb' 8 16 ≠ 0 →
    rejects w .rsvd s) ∧
  (∀ (c : CtxIx) (b : Byte), opField (encode (.absorb c b)) = 0x3 ∧
    ctxField (encode (.absorb c b)) = c ∧ dataField (encode (.absorb c b)) = b ∧
    (encode (.absorb c b)).extractLsb' 8 16 = 0)

/-- R170 with R162, R163, R164: FINAL pads and consumes the pending bytes, closes with N and then sigma
under a zero counter, delivers the reversed value whole or its second half, and resets the context.
Nothing else changes; otherwise it raises its error. -/
def Obligations.FinalDeliversTheDigest : Prop :=
  (∀ (s : State) (c : CtxIx) (olen : BitVec 7) (x : Context) (r h2 : Bytes64), s.err = .none →
    s.ctxs[c.toNat]? = some x → x.cst ≠ .uninit →
    olen.toNat = (if x.wid = .narrow then 32 else 64) →
    r = rev (ofList (x.buf ++ [0x01] ++ List.replicate (63 - x.buf.length) 0x00)) →
    h2 = compress 0 (compress 0 (compress x.N x.h r) (add512 x.N (be64 (8 * x.buf.length))))
      (add512 x.sigma r) →
    exec (.final c olen) s =
      .next { s with
        ctxs := s.ctxs.set c.toNat
          { cst := .empty, wid := x.wid, h := iv x.wid, N := 0, sigma := 0, buf := [] }
        digest := if x.wid = .narrow then ofList ((toList (rev h2)).drop 32) else rev h2
        dv := true
        dwid := some x.wid
        dctx := c }) ∧
  (∀ (s : State) (c : CtxIx) (olen : BitVec 7), s.err = .none →
    (s.nctx ≤ c.toNat → rejects (encode (.final c olen)) .ctx s) ∧
    (∀ x, s.ctxs[c.toNat]? = some x → x.cst = .uninit →
      rejects (encode (.final c olen)) .uninit s) ∧
    (∀ x, s.ctxs[c.toNat]? = some x → x.cst ≠ .uninit →
      olen.toNat ≠ (if x.wid = .narrow then 32 else 64) →
      rejects (encode (.final c olen)) .size s)) ∧
  (∀ (s : State) (w : Word), s.err = .none → opField w = 0x4 → w.extractLsb' 7 17 ≠ 0 →
    rejects w .rsvd s) ∧
  (∀ (c : CtxIx) (olen : BitVec 7), opField (encode (.final c olen)) = 0x4 ∧
    ctxField (encode (.final c olen)) = c ∧ olenField (encode (.final c olen)) = olen ∧
    (encode (.final c olen)).extractLsb' 7 17 = 0)

/-- R171: CLONE makes the destination, in whatever state it is, equal to the initialised source, and
changes nothing else; with d = s nothing changes; otherwise it raises its error. -/
def Obligations.CloneCopiesTheContext : Prop :=
  (∀ (s : State) (d src : CtxIx) (x : Context), s.err = .none → d.toNat < s.nctx →
    s.ctxs[src.toNat]? = some x → x.cst ≠ .uninit →
    exec (.clone d src) s = .next { s with ctxs := s.ctxs.set d.toNat x }) ∧
  (∀ (s : State) (d : CtxIx) (x : Context), s.err = .none →
    s.ctxs[d.toNat]? = some x → x.cst ≠ .uninit → exec (.clone d d) s = .next s) ∧
  (∀ (s : State) (d src : CtxIx), s.err = .none →
    (s.nctx ≤ d.toNat ∨ s.nctx ≤ src.toNat → rejects (encode (.clone d src)) .ctx s) ∧
    (∀ x, d.toNat < s.nctx → s.ctxs[src.toNat]? = some x → x.cst = .uninit →
      rejects (encode (.clone d src)) .uninit s)) ∧
  (∀ (s : State) (w : Word), s.err = .none → opField w = 0x5 → w.extractLsb' 0 20 ≠ 0 →
    rejects w .rsvd s) ∧
  (∀ d src : CtxIx, opField (encode (.clone d src)) = 0x5 ∧ ctxField (encode (.clone d src)) = d ∧
    srcField (encode (.clone d src)) = src ∧ (encode (.clone d src)).extractLsb' 0 20 = 0)

/-- R172: ERRACK clears a latched error and changes nothing else; without one it does nothing; with a
low bit set the word raises E_RSVD when no error is latched, and is ignored when one is. -/
def Obligations.ErrackClearsTheError : Prop :=
  (∀ s : State, s.err ≠ .none → exec .errack s = .next { s with err := .none, errInfo := 0 }) ∧
  (∀ s : State, s.err = .none → exec .errack s = .next s) ∧
  (∀ (s : State) (w : Word), opField w = 0x6 → w.extractLsb' 0 28 ≠ 0 →
    (s.err = .none → rejects w .rsvd s) ∧ (s.err ≠ .none → executeCommand w s = .next s)) ∧
  encode .errack = 0x60000000

/-! ### Frames -/

/-- R20, R29, R232: what a command leaves unchanged when it gives a next state: the bus, NCTX and BASE;
every context but its target; DIGEST and its tags unless it is FINAL; ERR and ERRINFO unless it is
ERRACK or raises an error, and then no context and no digest changes either. -/
def Obligations.CommandsLeaveTheRestUnchanged : Prop :=
  ∀ (i : Instr) (s t : State), exec i s = .next t →
    sameBus s t ∧ t.nctx = s.nctx ∧
    (∀ j, (∀ c, targetOf i = some c → j ≠ c.toNat) → t.ctxs[j]? = s.ctxs[j]?) ∧
    (isFinal i = false → sameDigest s t) ∧
    (¬ sameError s t → t.ctxs = s.ctxs ∧ sameDigest s t ∧
      (i = .errack ∨ (s.err = .none ∧ t.errInfo = encode i)))

/-- R33, R52 with the frame above, said of the register window: a command changes what an offset reads
only at STATUS, at ERRINFO, at the CTXSTAT of its target, and, for FINAL, at DIGEST_W. -/
def Obligations.CommandsLeaveOtherOffsetsUnchanged : Prop :=
  ∀ (i : Instr) (s t : State) (off : Nat), exec i s = .next t →
    off ≠ 0x004 → off ≠ 0x008 → (∀ c, targetOf i = some c → off ≠ 0x010 + 4 * c.toNat) →
    (isFinal i = true → off < 0x100 ∨ 0x140 ≤ off) →
    t.readWord off = s.readWord off

/-- R29: only a successful FINAL, or hardware reset, writes DV, DWID, DCTX and DIGEST, whatever the
event is. -/
def Obligations.OnlyFinalWritesTheDigest : Prop :=
  ∀ (s t : State), step s = .next t → ¬ sameDigest s t →
    ∃ e rest, s.pending = e :: rest ∧
      (e = .hwReset ∨ ∃ c olen, e = .write s.base 0b1111#4 (encode (.final c olen)) ∧
        accepts s (.final c olen))

/-- R26: how CST changes: a command that is accepted takes its target to EMPTY (INIT, RESET, FINAL), to
ACCUM (ABSORB) or to the source's state (CLONE); nothing else changes any CST. -/
def Obligations.LifeCycleTransitions : Prop :=
  ∀ (i : Instr) (s t : State) (j : Nat) (x y : Context), exec i s = .next t →
    s.ctxs[j]? = some x → t.ctxs[j]? = some y → y.cst ≠ x.cst →
    s.err = .none ∧
    ((∃ c wid, i = .init c wid ∧ c.toNat = j ∧ y.cst = .empty) ∨
     (∃ c, i = .reset c ∧ c.toNat = j ∧ y.cst = .empty) ∨
     (∃ c b, i = .absorb c b ∧ c.toNat = j ∧ y.cst = .accum) ∨
     (∃ c olen, i = .final c olen ∧ c.toNat = j ∧ y.cst = .empty) ∨
     (∃ d src z, i = .clone d src ∧ d.toNat = j ∧ s.ctxs[src.toNat]? = some z ∧ y.cst = z.cst))

/-- R25: only INIT writes the width flag and only CLONE copies it. -/
def Obligations.OnlyInitAndCloneChangeTheWidth : Prop :=
  ∀ (i : Instr) (s t : State) (j : Nat) (x y : Context), exec i s = .next t →
    s.ctxs[j]? = some x → t.ctxs[j]? = some y → y.wid ≠ x.wid →
    (∃ c wid, i = .init c wid ∧ c.toNat = j) ∨
    (∃ d src z, i = .clone d src ∧ d.toNat = j ∧ s.ctxs[src.toNat]? = some z ∧ y.wid = z.wid)

/-- R27: ABSORB changes h, N and sigma of a context as a triple, once per full block, or not at all. -/
def Obligations.ChainCounterAndChecksumMoveTogether : Prop :=
  ∀ (s t : State) (c : CtxIx) (b : Byte) (x y : Context), exec (.absorb c b) s = .next t →
    s.ctxs[c.toNat]? = some x → t.ctxs[c.toNat]? = some y → x.buf.length ≤ 63 →
    (y.h = x.h ∧ y.N = x.N ∧ y.sigma = x.sigma) ∨
    (∃ r, y.h = compress x.N x.h r ∧ y.N = add512 x.N (be64 512) ∧ y.sigma = add512 x.sigma r ∧
      (∀ i, i < 63 → some (byte r (63 - i)) = x.buf[i]?) ∧ byte r 0 = b)

/-! ### Errors -/

/-- R202: a write that raises an error, from a state without one, changes nothing but ERR and ERRINFO,
and ERRINFO is the command word, or the byte offset for E_BUS; with an error latched, neither a bus
error nor a word that is no command changes anything. -/
def Obligations.ErrorsArePrecise : Prop :=
  ∀ (s t : State) (off : Nat) (lanes : BitVec 4) (v : Word) (rest : List BusEvent),
    s.pending = .write (s.base + off) lanes v :: rest → off < 0x200 → step s = .next t →
    (s.err = .none → t.err ≠ .none →
      t = { s with
        pending := rest
        err := t.err
        errInfo := if t.err = .bus then BitVec.ofNat 32 off else v }) ∧
    (s.err ≠ .none → off ≠ 0 ∨ lanes ≠ 0b1111#4 ∨ (∃ e, decode v = .error e) →
      t = { s with pending := rest })

/-- R203: while an error is latched every command word but exactly ERRACK is dropped, a bus error is
dropped, and reads go on working. -/
def Obligations.LatchedErrorDropsEverythingButErrack : Prop :=
  ∀ (s : State) (rest : List BusEvent) (off : Nat) (lanes : BitVec 4) (v : Word),
    s.err ≠ .none → off < 0x200 →
    (s.pending = .write (s.base + off) lanes v :: rest →
      step s = .next (if off = 0 ∧ lanes = 0b1111#4 ∧ v = 0x60000000#32
        then { s with pending := rest, err := .none, errInfo := 0 }
        else { s with pending := rest })) ∧
    (s.pending = .read (s.base + off) lanes :: rest →
      step s = .next { s with pending := rest, replies := s.readWord off :: s.replies })

/-- R204: ERRACK and hardware reset are the only ways out of the error state. -/
def Obligations.OnlyErrackLeavesTheErrorState : Prop :=
  ∀ (s t : State), step s = .next t → s.err ≠ .none → t.err = .none →
    ∃ e rest, s.pending = e :: rest ∧ (e = .hwReset ∨ e = .write s.base 0b1111#4 0x60000000#32)

/-- The last column of R200: ERRINFO always spells the error that ERR holds. -/
def Obligations.StepKeepsErrInfoSpelling : Prop :=
  ∀ (s t : State), errInfoSpells s.err s.errInfo s.nctx → step s = .next t →
    errInfoSpells t.err t.errInfo t.nctx

/-! ### The register window -/

/-- R52: what each offset of the window reads. -/
def Obligations.ReadsFollowTheRegisterMap : Prop :=
  ∀ s : State,
    s.readWord 0x000 = 0 ∧ s.readWord 0x004 = s.status ∧ s.readWord 0x008 = s.errInfo ∧
    s.readWord 0x00C = 0 ∧
    (∀ i, i < 16 → s.readWord (0x010 + 4 * i) = s.ctxstat i) ∧
    (∀ off, 0x050 ≤ off → off < 0x100 → s.readWord off = 0) ∧
    (∀ k, k < 16 → s.readWord (0x100 + 4 * k) = s.digestW k) ∧
    (∀ off, 0x140 ≤ off → off < 0x200 → s.readWord off = 0) ∧
    (∀ off, off % 4 ≠ 0 → s.readWord off = 0)

/-- R55 with R54: a read answers its word whatever its lanes and changes nothing, so that a second read
of the same register answers the same; a reserved offset answers 0. -/
def Obligations.ReadsHaveNoSideEffects : Prop :=
  ∀ (s : State) (off : Nat) (lanes lanes' : BitVec 4) (rest : List BusEvent), off < 0x200 →
    s.pending = .read (s.base + off) lanes :: .read (s.base + off) lanes' :: rest →
    ∃ t u, step s = .next t ∧ step t = .next u ∧
      t = { s with
        pending := .read (s.base + off) lanes' :: rest, replies := s.readWord off :: s.replies } ∧
      u = { s with
        pending := rest, replies := s.readWord off :: s.readWord off :: s.replies } ∧
      ((0x00C ≤ off ∧ off < 0x010) ∨ (0x050 ≤ off ∧ off < 0x100) ∨ 0x140 ≤ off →
        s.readWord off = 0)

/-- R56 with the write clauses of R53 and R54: an aligned full-word write to CMD executes its word; any
other write to the window raises E_BUS with the offset and does nothing else, and nothing at all while
an error is latched. -/
def Obligations.WritesOtherThanCommandsRaiseEBus : Prop :=
  ∀ (s : State) (off : Nat) (lanes : BitVec 4) (v : Word) (rest : List BusEvent), off < 0x200 →
    s.pending = .write (s.base + off) lanes v :: rest →
    (off = 0 → lanes = 0b1111#4 → step s = executeCommand v { s with pending := rest }) ∧
    (off ≠ 0 ∨ lanes ≠ 0b1111#4 →
      step s = .next (if s.err = .none
        then { s with pending := rest, err := .bus, errInfo := BitVec.ofNat 32 off }
        else { s with pending := rest }))

/-- R51, R214: a step goes on unless the next access is to an address outside the window; with nothing
pending it keeps all state. That an access outside is refused is the model's choice (log 9; U8 allows
it). -/
def Obligations.StepGoesOnInsideTheWindow : Prop :=
  ∀ s : State, (s.pending = [] → step s = .next s) ∧
    ((∀ e rest, s.pending = e :: rest → inWindow s e) → ∃ t, step s = .next t) ∧
    (∀ e rest, s.pending = e :: rest → ¬ inWindow s e → step s = .refused .outsideWindow)

/-- R30: the fields of STATUS, and that writing it raises a bus error. -/
def Obligations.StatusFields : Prop :=
  ∀ s : State,
    (s.readWord 0x004).extractLsb' 0 4 = s.err.code ∧ (s.readWord 0x004).extractLsb' 4 4 = 0 ∧
    (s.readWord 0x004).extractLsb' 8 1 = BitVec.ofBool s.dv ∧
    (s.readWord 0x004).extractLsb' 9 2 =
      (match s.dwid with
       | none => 0b00#2
       | some .narrow => 0b01#2
       | some .wide => 0b10#2) ∧
    (s.readWord 0x004).extractLsb' 11 1 = 0 ∧ (s.readWord 0x004).extractLsb' 12 4 = s.dctx ∧
    (s.readWord 0x004).extractLsb' 16 4 = BitVec.ofNat 4 (s.nctx - 1) ∧
    (s.readWord 0x004).extractLsb' 20 12 = 0 ∧
    (s.err = .none → ∀ v : Word,
      writeWord 0x004 0b1111#4 v s = .next { s with err := .bus, errInfo := 0x004 })

/-- R31: ERRINFO is read at 0x008, and is 0 whenever ERR = 0. -/
def Obligations.ErrInfoReads : Prop :=
  ∀ s : State, s.readWord 0x008 = s.errInfo ∧ (s.Inv → s.err = .none → s.readWord 0x008 = 0)

/-- R32: the fields of CTXSTAT[i], for contexts that exist and for those that do not. -/
def Obligations.CtxstatFields : Prop :=
  ∀ (s : State) (i : Nat), i < 16 →
    (∀ x, s.ctxs[i]? = some x → x.Inv →
      (s.readWord (0x010 + 4 * i)).extractLsb' 0 2 =
        (match x.cst with
         | .uninit => 0b00#2
         | .empty => 0b01#2
         | .accum => 0b10#2) ∧
      (s.readWord (0x010 + 4 * i)).extractLsb' 2 2 =
        (if x.cst = .uninit then 0b00#2 else if x.wid = .narrow then 0b01#2 else 0b10#2) ∧
      ((s.readWord (0x010 + 4 * i)).extractLsb' 4 6).toNat =
        (if x.cst = .uninit then 0 else x.buf.length) ∧
      (s.readWord (0x010 + 4 * i)).extractLsb' 10 22 = 0) ∧
    (s.nctx ≤ i → s.readWord (0x010 + 4 * i) = 0)

/-- R57: DIGEST_W packs the digest bytes little-endian. -/
def Obligations.DigestWordsAreLittleEndian : Prop :=
  ∀ (s : State) (k j : Nat), k < 16 → j < 4 →
    (s.readWord (0x100 + 4 * k)).extractLsb' (8 * j) 8 = byte s.digest (4 * k + j)

/-! ### Bytes and primitives -/

/-- R10: int512, bytes512, be64 and word64 in terms of the bytes. -/
def Obligations.BigEndianInterpretation : Prop :=
  (∀ b : Bytes64,
    b.toNat = ((List.range 64).map fun i => (byte b i).toNat * 2 ^ (8 * (63 - i))).sum) ∧
  (∀ v n : Nat, v < 2 ^ 512 → (be64 v).toNat = v ∧ be64 (n % 2 ^ 512) = be64 n) ∧
  (∀ (b : Bytes64) (w : Nat), w < 8 →
    (word64 b w).toNat =
      ((List.range 8).map fun j => (byte b (8 * w + j)).toNat * 2 ^ (8 * (7 - j))).sum) ∧
  (∀ (f : Nat → Dword) (w j : Nat), w < 8 → j < 8 →
    byte (ofWords f) (8 * w + j) = (f w).extractLsb' (8 * (7 - j)) 8)

/-- R11: reversal, and that it is its own inverse. -/
def Obligations.ReversalIsItsOwnInverse : Prop :=
  ∀ b : Bytes64, (∀ i, i < 64 → byte (rev b) i = byte b (63 - i)) ∧ rev (rev b) = b

/-- R110: 512-bit addition modulo 2^512 and its corner cases. -/
def Obligations.AdditionIsModulo512Bits : Prop :=
  (∀ a b : Bytes64, (add512 a b).toNat = (a.toNat + b.toNat) % 2 ^ 512) ∧
  (∀ a b c : Bytes64, add512 a b = add512 b a ∧ add512 (add512 a b) c = add512 a (add512 b c) ∧
    add512 a 0 = a) ∧
  add512 (ofBytes fun _ => 0xFF) (be64 1) = 0 ∧
  (add512 (be64 (2 ^ 64 - 1)) (be64 1) = be64 (2 ^ 64) ∧
    ∀ i, i < 64 → byte (be64 (2 ^ 64)) i = if i = 55 then 0x01 else 0x00) ∧
  (add512 (be64 512) (be64 512) = be64 1024 ∧
    ∀ i, i < 64 → byte (be64 1024) i = if i = 62 then 0x04 else 0x00)

/-- R111: xorCombine byte by byte and its corner cases. -/
def Obligations.XorCombineIsByteWise : Prop :=
  ∀ a b c : Bytes64, (∀ i, i < 64 → byte (xorCombine a b) i = byte a i ^^^ byte b i) ∧
    xorCombine a a = 0 ∧ xorCombine a 0 = a ∧ xorCombine a b = xorCombine b a ∧
    xorCombine (xorCombine a b) c = xorCombine a (xorCombine b c)

/-- R112: substitute is the byte-wise table lookup, and a bijection. -/
def Obligations.SubstituteIsABijection : Prop :=
  (∀ (b : Bytes64) (i : Nat), i < 64 → byte (substitute b) i = sbox (byte b i)) ∧
  Function.Bijective substitute ∧
  (∀ i, i < 64 → byte (substitute 0) i = 0xFC ∧ byte (substitute (ofBytes fun _ => 0xFF)) i = 0xB6)

/-- R113 with R131: permute is the byte-wise index shuffle; that it is its own inverse the spec marks as
derived from R131. -/
def Obligations.PermuteIsAnInvolution : Prop :=
  (∀ (b : Bytes64) (i : Nat), i < 64 → byte (permute b) i = byte b (8 * (i % 8) + i / 8)) ∧
  (∀ b : Bytes64, permute (permute b) = b)

/-- R114: linearDiffuse is, on each word by itself, the XOR of the rows of the set bits, the first row
for the most significant bit; it is linear, and a word with one set bit gives that bit's row. -/
def Obligations.LinearDiffuseXorsTheRowsOfSetBits : Prop :=
  (∀ (b : Bytes64) (w : Nat), w < 8 →
    word64 (linearDiffuse b) w =
      (List.range 64).foldl
        (fun acc j => if (word64 b w).getLsbD (63 - j) then acc ^^^ arow j else acc) 0) ∧
  (∀ a b : Bytes64,
    linearDiffuse (xorCombine a b) = xorCombine (linearDiffuse a) (linearDiffuse b)) ∧
  linearDiffuse 0 = 0 ∧
  (∀ (b : Bytes64) (w j : Nat), w < 8 → j < 64 → word64 b w = BitVec.twoPow 64 (63 - j) →
    word64 (linearDiffuse b) w = arow j)

/-- R115: LPS is a bijection on 64-byte values (the rule derives it from the invertibility of the
matrix of R132, which the spec marks as general knowledge). -/
def Obligations.LpsIsABijection : Prop := Function.Bijective lps

/-- R142, R143 with R140, R141: E is twelve rounds, round i using the key K(i+1) of the schedule, and G
is E seeded from the counter and the chaining value. -/
def Obligations.EncryptionRunsTwelveRounds : Prop :=
  (∀ (k0 m : Bytes64) (st key : Nat → Bytes64),
    st 0 = xorCombine m k0 → key 0 = k0 →
    (∀ i, i < 12 → key (i + 1) = lps (xorCombine (key i) (roundConstant i))) →
    (∀ i, i < 12 → st (i + 1) = xorCombine (lps (st i)) (key (i + 1))) →
    encrypt k0 m = st 12) ∧
  (∀ n h m : Bytes64,
    compress n h m = xorCombine (xorCombine (encrypt (lps (xorCombine n h)) m) h) m)

/-! ### Blocks, padding and digest -/

/-- R162: the padded final block byte by byte, where the pad byte lands after the reversal, and what
consumeFinal does to the triple; with nothing pending the block is the pad alone. -/
def Obligations.FinalBlockIsPadded : Prop :=
  ∀ x : Context, x.buf.length ≤ 63 →
    (∀ i, i < 64 → byte (rev (padBlock x.buf)) (63 - i) =
      if i < x.buf.length then x.buf.getD i 0 else if i = x.buf.length then 0x01 else 0x00) ∧
    x.consumeFinal =
      { x with
        h := compress x.N x.h (rev (padBlock x.buf))
        N := add512 x.N (be64 (8 * x.buf.length))
        sigma := add512 x.sigma (rev (padBlock x.buf)) } ∧
    (x.buf = [] → rev (padBlock x.buf) = be64 1 ∧ x.consumeFinal.N = x.N)

/-- R163: the closing step, and which bytes of the reversed final h it emits, in which order. -/
def Obligations.DigestBytesOfTheFinalChainingValue : Prop :=
  ∀ (x : Context) (h2 : Bytes64),
    h2 = compress 0 (compress 0 x.h x.N) x.sigma →
    (x.wid = .wide → x.close.length = 64 ∧ ∀ i, i < 64 → x.close[i]? = some (byte (rev h2) i)) ∧
    (x.wid = .narrow → x.close.length = 32 ∧ ∀ i, i < 32 → x.close[i]? = some (byte (rev h2) (32 + i)))

/-- R164: delivery writes the digest, zeros beyond a narrow one, and the tags, and nothing else. -/
def Obligations.DeliveryZeroesBeyondANarrowDigest : Prop :=
  ∀ (s : State) (c : CtxIx) (x : Context),
    (∀ i, i < 64 → byte (s.deliver c x.wid x.close).digest i = x.close.getD i 0) ∧
    (x.wid = .narrow → ∀ i, 32 ≤ i → i < 64 → byte (s.deliver c x.wid x.close).digest i = 0) ∧
    s.deliver c x.wid x.close =
      { s with digest := (s.deliver c x.wid x.close).digest, dv := true, dwid := some x.wid,
               dctx := c }

/-- R173, which the spec derives from R161 and R169: a context that has absorbed `a` and then takes the
bytes of `b` has absorbed `a ++ b`: the blocks are the 64-byte pieces of the stream, however it was
split, and nothing but the context changes. -/
def Obligations.AbsorbedStreamIsIndependentOfItsChunks : Prop :=
  ∀ (s : State) (c : CtxIx) (w : Width) (a b : List Byte), s.err = .none →
    s.ctxs[c.toNat]? = some (streamContext w a) →
    execAll (absorbCommands c b) s = .next (s.putCtx c (streamContext w (a ++ b)))

/-- R93 with R170, R173, R177: INIT, one ABSORB per byte and FINAL leave in DIGEST the one-shot digest
of the message, whatever the state before, and change nothing but the context and the digest. -/
def Obligations.HashCommandsGiveTheOneShotDigest : Prop :=
  ∀ (s : State) (c : CtxIx) (w : Width) (wid : BitVec 2) (olen : BitVec 7) (msg : List Byte),
    s.err = .none → c.toNat < s.nctx →
    (wid = 0b01#2 ∧ olen = 32#7 ∧ w = .narrow) ∨ (wid = 0b10#2 ∧ olen = 64#7 ∧ w = .wide) →
    ∃ t, execAll (hashCommands c wid olen msg) s = .next t ∧
      t.digest = ofList (oneShotDigest w msg) ∧ t.dv = true ∧ t.dwid = some w ∧ t.dctx = c ∧
      t.ctxs[c.toNat]? = some (streamContext w []) ∧ sameOthers c s t ∧ sameError s t ∧ sameBus s t

/-- R174, which the spec derives from R20 and R171: after CLONE the two contexts are independent: FINAL
of each gives the digest of the common stream followed by the bytes absorbed into that one. -/
def Obligations.ClonesAreIndependent : Prop :=
  ∀ (s : State) (d src : CtxIx) (w : Width) (olen : BitVec 7) (a b1 b2 : List Byte),
    s.err = .none → d ≠ src → d.toNat < s.nctx →
    s.ctxs[src.toNat]? = some (streamContext w a) → olen.toNat = w.digestBytes →
    ∃ t u, execAll ([.clone d src] ++ absorbCommands src b1 ++ absorbCommands d b2 ++
        [.final src olen]) s = .next t ∧
      t.digest = ofList (oneShotDigest w (a ++ b1)) ∧ t.dctx = src ∧
      exec (.final d olen) t = .next u ∧
      u.digest = ofList (oneShotDigest w (a ++ b2)) ∧ u.dctx = d

/-- R175, which the spec derives from R160 and R170: FINAL leaves the context as INIT of its width would,
and a second FINAL gives the digest of the empty message. -/
def Obligations.FinalImpliesReset : Prop :=
  ∀ (s : State) (c : CtxIx) (olen : BitVec 7) (x : Context), s.err = .none →
    s.ctxs[c.toNat]? = some x → x.cst ≠ .uninit → olen.toNat = x.wid.digestBytes →
    ∃ t u v, exec (.final c olen) s = .next t ∧ exec (.init c x.wid.code) s = .next u ∧
      t.ctxs = u.ctxs ∧ exec (.final c olen) t = .next v ∧
      v.digest = ofList (oneShotDigest x.wid []) ∧ v.ctxs = t.ctxs

/-! ### Independence of contexts -/

/-- R20, R212: what a command does to its context, and the digest it delivers, depend only on the
contexts it names. -/
def Obligations.ContextResultsDependOnlyOnTheirContexts : Prop :=
  ∀ (i : Instr) (c : CtxIx) (s s' t t' : State), targetOf i = some c →
    (∀ k, k ∈ contextsOf i → s.ctxs[k.toNat]? = s'.ctxs[k.toNat]?) →
    s.err = .none → s'.err = .none → exec i s = .next t → exec i s' = .next t' →
    t.ctxs[c.toNat]? = t'.ctxs[c.toNat]? ∧ t.err = t'.err ∧
    (isFinal i = true → t.err = .none → t.digest = t'.digest ∧ t.dwid = t'.dwid)

/-- R212: accepted commands that name different contexts may come in either order, unless both write
the shared digest. -/
def Obligations.CommandsOnDifferentContextsCommute : Prop :=
  ∀ (s : State) (i j : Instr), accepts s i → accepts s j →
    (∀ c, c ∈ contextsOf i → c ∉ contextsOf j) → ¬ (isFinal i = true ∧ isFinal j = true) →
    ∃ t, execAll [i, j] s = .next t ∧ execAll [j, i] s = .next t

/-- R38 with U1 and U2: what an UNINIT context holds besides its CST cannot be observed: two states that
differ only there read the same at every offset, and step to such states again. -/
def Obligations.UninitContentsAreNotObservable : Prop :=
  ∀ s t : State, s.indist t →
    (∀ off, s.readWord off = t.readWord off) ∧
    (∀ s', step s = .next s' → ∃ t', step t = .next t' ∧ s'.indist t') ∧
    (∀ r, step s = .refused r → step t = .refused r)

/-! ### Invariants -/

/-- The reset state of any legal size meets the invariant. -/
def Obligations.ResetMeetsInvariant : Prop :=
  ∀ n u : Nat, 1 ≤ n → n ≤ 16 → (State.resetWith n u).Inv

/-- Every step keeps the invariant: LEN ≤ 63 (R24), EMPTY contexts fresh (R160), the counter a multiple
of 512 (R161), ERRINFO 0 without an error (R31), the digest's tags and zeros (R29, R164, R38), NCTX in
1..16 (R7). -/
def Obligations.StepKeepsInvariant : Prop :=
  ∀ s t : State, s.Inv → step s = .next t → t.Inv

/-! ### The assembler -/

/-- R92, R93: every line the assembler accepts, raw words apart, is a list of commands with a legal
width, and the pseudo-instructions expand to their commands in order. -/
def Obligations.AssemblerWritesCommands : Prop :=
  (∀ (l : AsmLine) (ws : List Word), assemble l = some ws → (∀ v, l ≠ .word v) →
    ∃ is : List Instr, ws = is.map encode ∧ ∀ i ∈ is, i.widthLegal = true) ∧
  (∀ (c : CtxIx) (data : List Byte),
    assemble (.absorbs c.toNat data) = some (data.map fun b => encode (.absorb c b))) ∧
  (∀ (c : CtxIx) (v : Nat) (data : List Byte), v = 256 ∨ v = 512 →
    ∃ a b d, assemble (.init c.toNat v) = some a ∧ assemble (.absorbs c.toNat data) = some b ∧
      assemble (.final c.toNat (v / 8)) = some d ∧
      assemble (.hash c.toNat v data) = some (a ++ b ++ d))
end

