-- ==== Sys2Proof/Laws/State.lean ====
section
/-! SUPPORT. What each update of the state does to each field: one lemma per field and update. -/

namespace Sys2Proof.Machine

variable (s : State) (c : CtxIx) (x : Context) (w : Width) (o : List Byte)

/-! ### putCtx -/

@[simp] theorem putCtx_ctxs : (s.putCtx c x).ctxs = s.ctxs.set c.toNat x := rfl
@[simp] theorem putCtx_err : (s.putCtx c x).err = s.err := rfl
@[simp] theorem putCtx_errInfo : (s.putCtx c x).errInfo = s.errInfo := rfl
@[simp] theorem putCtx_dv : (s.putCtx c x).dv = s.dv := rfl
@[simp] theorem putCtx_dwid : (s.putCtx c x).dwid = s.dwid := rfl
@[simp] theorem putCtx_dctx : (s.putCtx c x).dctx = s.dctx := rfl
@[simp] theorem putCtx_digest : (s.putCtx c x).digest = s.digest := rfl
@[simp] theorem putCtx_baseUnit : (s.putCtx c x).baseUnit = s.baseUnit := rfl
@[simp] theorem putCtx_pending : (s.putCtx c x).pending = s.pending := rfl
@[simp] theorem putCtx_replies : (s.putCtx c x).replies = s.replies := rfl

@[simp] theorem putCtx_nctx : (s.putCtx c x).nctx = s.nctx := by simp [State.nctx]

theorem putCtx_getElem?_self (h : c.toNat < s.nctx) : (s.putCtx c x).ctxs[c.toNat]? = some x := by
  rw [putCtx_ctxs, List.getElem?_set_self h]

theorem putCtx_getElem?_other {j : Nat} (h : j ≠ c.toNat) :
    (s.putCtx c x).ctxs[j]? = s.ctxs[j]? := by
  simp [h.symm]

/-- Writing back what stands there changes nothing. -/
theorem putCtx_eq_self (h : s.ctxs[c.toNat]? = some x) : s.putCtx c x = s := by
  have hlt : c.toNat < s.ctxs.length := (List.getElem?_eq_some_iff.mp h).1
  have : s.ctxs.set c.toNat x = s.ctxs := by
    apply List.ext_getElem?
    intro i
    by_cases hi : c.toNat = i
    · subst hi; rw [List.getElem?_set_self hlt, h]
    · simp [hi]
  simp [State.putCtx, this]

/-- Of two writes to one context the later stands. -/
@[simp] theorem putCtx_putCtx (y : Context) : (s.putCtx c x).putCtx c y = s.putCtx c y := by
  simp [State.putCtx]

/-! ### deliver -/

@[simp] theorem deliver_ctxs : (s.deliver c w o).ctxs = s.ctxs := by
  unfold State.deliver; rfl
@[simp] theorem deliver_err : (s.deliver c w o).err = s.err := by
  unfold State.deliver; rfl
@[simp] theorem deliver_errInfo : (s.deliver c w o).errInfo = s.errInfo := by
  unfold State.deliver; rfl
@[simp] theorem deliver_dv : (s.deliver c w o).dv = true := by
  unfold State.deliver; rfl
@[simp] theorem deliver_dwid : (s.deliver c w o).dwid = some w := by
  unfold State.deliver; rfl
@[simp] theorem deliver_dctx : (s.deliver c w o).dctx = c := by
  unfold State.deliver; rfl
@[simp] theorem deliver_digest : (s.deliver c w o).digest = ofList o := by
  unfold State.deliver; rfl
@[simp] theorem deliver_baseUnit : (s.deliver c w o).baseUnit = s.baseUnit := by
  unfold State.deliver; rfl
@[simp] theorem deliver_pending : (s.deliver c w o).pending = s.pending := by
  unfold State.deliver; rfl
@[simp] theorem deliver_replies : (s.deliver c w o).replies = s.replies := by
  unfold State.deliver; rfl
@[simp] theorem deliver_nctx : (s.deliver c w o).nctx = s.nctx := by
  unfold State.deliver; rfl

/-! ### raise -/

theorem raise_of_none {code : ErrCode} {info : Word} (h : s.err = .none) :
    raise code info s = { s with err := code, errInfo := info } := by simp [raise, h]

theorem raise_of_error {code : ErrCode} {info : Word} (h : s.err ≠ .none) :
    raise code info s = s := by simp [raise, h]

variable (code : ErrCode) (info : Word)

@[simp] theorem raise_ctxs : (raise code info s).ctxs = s.ctxs := by unfold raise; split <;> rfl
@[simp] theorem raise_dv : (raise code info s).dv = s.dv := by unfold raise; split <;> rfl
@[simp] theorem raise_dwid : (raise code info s).dwid = s.dwid := by unfold raise; split <;> rfl
@[simp] theorem raise_dctx : (raise code info s).dctx = s.dctx := by unfold raise; split <;> rfl
@[simp] theorem raise_digest : (raise code info s).digest = s.digest := by
  unfold raise; split <;> rfl
@[simp] theorem raise_baseUnit : (raise code info s).baseUnit = s.baseUnit := by
  unfold raise; split <;> rfl
@[simp] theorem raise_pending : (raise code info s).pending = s.pending := by
  unfold raise; split <;> rfl
@[simp] theorem raise_replies : (raise code info s).replies = s.replies := by
  unfold raise; split <;> rfl
@[simp] theorem raise_nctx : (raise code info s).nctx = s.nctx := by simp [State.nctx]

/-! ### acknowledge -/

theorem acknowledge_of_none (h : s.err = .none) : acknowledge s = s := by simp [acknowledge, h]

theorem acknowledge_of_error (h : s.err ≠ .none) :
    acknowledge s = { s with err := .none, errInfo := 0 } := by simp [acknowledge, h]

@[simp] theorem acknowledge_err : (acknowledge s).err = .none := by
  unfold acknowledge; split <;> first | assumption | rfl
@[simp] theorem acknowledge_ctxs : (acknowledge s).ctxs = s.ctxs := by
  unfold acknowledge; split <;> rfl
@[simp] theorem acknowledge_nctx : (acknowledge s).nctx = s.nctx := by simp [State.nctx]
@[simp] theorem acknowledge_dv : (acknowledge s).dv = s.dv := by
  unfold acknowledge; split <;> rfl
@[simp] theorem acknowledge_dwid : (acknowledge s).dwid = s.dwid := by
  unfold acknowledge; split <;> rfl
@[simp] theorem acknowledge_dctx : (acknowledge s).dctx = s.dctx := by
  unfold acknowledge; split <;> rfl
@[simp] theorem acknowledge_digest : (acknowledge s).digest = s.digest := by
  unfold acknowledge; split <;> rfl
@[simp] theorem acknowledge_baseUnit : (acknowledge s).baseUnit = s.baseUnit := by
  unfold acknowledge; split <;> rfl
@[simp] theorem acknowledge_pending : (acknowledge s).pending = s.pending := by
  unfold acknowledge; split <;> rfl
@[simp] theorem acknowledge_replies : (acknowledge s).replies = s.replies := by
  unfold acknowledge; split <;> rfl

/-! ### Reads, and what stands outside the engine -/

variable (off : Nat)

@[simp] theorem answerRead_ctxs : (answerRead off s).ctxs = s.ctxs := rfl
@[simp] theorem answerRead_err : (answerRead off s).err = s.err := rfl
@[simp] theorem answerRead_errInfo : (answerRead off s).errInfo = s.errInfo := rfl
@[simp] theorem answerRead_dv : (answerRead off s).dv = s.dv := rfl
@[simp] theorem answerRead_dwid : (answerRead off s).dwid = s.dwid := rfl
@[simp] theorem answerRead_dctx : (answerRead off s).dctx = s.dctx := rfl
@[simp] theorem answerRead_digest : (answerRead off s).digest = s.digest := rfl
@[simp] theorem answerRead_baseUnit : (answerRead off s).baseUnit = s.baseUnit := rfl
@[simp] theorem answerRead_pending : (answerRead off s).pending = s.pending := rfl
@[simp] theorem answerRead_replies :
    (answerRead off s).replies = s.readWord off :: s.replies := rfl
@[simp] theorem answerRead_nctx : (answerRead off s).nctx = s.nctx := rfl

@[simp] theorem withFetchWord_pending (nbits v : Nat) :
    (s.withFetchWord nbits v).pending =
      cmdWrite s (BitVec.ofNat 32 (v % 2 ^ nbits)) :: s.pending := rfl

@[simp] theorem hardwareReset_ctxs :
    (hardwareReset s).ctxs = List.replicate s.nctx Context.uninit := rfl
@[simp] theorem hardwareReset_err : (hardwareReset s).err = .none := rfl
@[simp] theorem hardwareReset_errInfo : (hardwareReset s).errInfo = 0 := rfl
@[simp] theorem hardwareReset_dv : (hardwareReset s).dv = false := rfl
@[simp] theorem hardwareReset_dwid : (hardwareReset s).dwid = none := rfl
@[simp] theorem hardwareReset_dctx : (hardwareReset s).dctx = 0 := rfl
@[simp] theorem hardwareReset_digest : (hardwareReset s).digest = 0 := rfl
@[simp] theorem hardwareReset_baseUnit : (hardwareReset s).baseUnit = s.baseUnit := rfl
@[simp] theorem hardwareReset_pending : (hardwareReset s).pending = s.pending := rfl
@[simp] theorem hardwareReset_replies : (hardwareReset s).replies = s.replies := rfl
@[simp] theorem hardwareReset_nctx : (hardwareReset s).nctx = s.nctx := by
  simp [State.nctx]

/-! ### One context

These and the lemmas about `deliver` unfold first: a bare `rfl` would have the kernel compare
`x.consume r n` with `x` and unfold the whole compression function. -/

@[simp] theorem fresh_cst : x.fresh.cst = .empty := rfl
@[simp] theorem fresh_wid : x.fresh.wid = x.wid := rfl
@[simp] theorem fresh_h : x.fresh.h = iv x.wid := by unfold Context.fresh; rfl
@[simp] theorem fresh_N : x.fresh.N = zero64 := rfl
@[simp] theorem fresh_sigma : x.fresh.sigma = zero64 := rfl
@[simp] theorem fresh_buf : x.fresh.buf = [] := rfl
@[simp] theorem fresh_fresh : x.fresh.fresh = x.fresh := rfl

@[simp] theorem consume_cst (r : Bytes64) (n : Nat) : (x.consume r n).cst = x.cst := by
  unfold Context.consume; rfl
@[simp] theorem consume_wid (r : Bytes64) (n : Nat) : (x.consume r n).wid = x.wid := by
  unfold Context.consume; rfl
@[simp] theorem consume_buf (r : Bytes64) (n : Nat) : (x.consume r n).buf = x.buf := by
  unfold Context.consume; rfl
@[simp] theorem consume_h (r : Bytes64) (n : Nat) :
    (x.consume r n).h = compress x.N x.h r := by unfold Context.consume; rfl
@[simp] theorem consume_N (r : Bytes64) (n : Nat) :
    (x.consume r n).N = add512 x.N (be64 n) := by unfold Context.consume; rfl
@[simp] theorem consume_sigma (r : Bytes64) (n : Nat) :
    (x.consume r n).sigma = add512 x.sigma r := by unfold Context.consume; rfl

@[simp] theorem consumeFull_cst (b : List Byte) : (x.consumeFull b).cst = x.cst := by
  unfold Context.consumeFull; simp
@[simp] theorem consumeFull_wid (b : List Byte) : (x.consumeFull b).wid = x.wid := by
  unfold Context.consumeFull; simp
@[simp] theorem consumeFull_buf (b : List Byte) : (x.consumeFull b).buf = x.buf := by
  unfold Context.consumeFull; simp
@[simp] theorem consumeFinal_cst : x.consumeFinal.cst = x.cst := by
  unfold Context.consumeFinal; simp
@[simp] theorem consumeFinal_wid : x.consumeFinal.wid = x.wid := by
  unfold Context.consumeFinal; simp
@[simp] theorem consumeFinal_buf : x.consumeFinal.buf = x.buf := by
  unfold Context.consumeFinal; simp

end Sys2Proof.Machine
end

