-- ==== Sys2Proof/Laws/Ops.lean ====
section
/-! SUPPORT. One lemma per shared operation that says everything it can do: operand forms, the command
frame, ABSORB on one context, and the frame of each kind of update. -/

namespace Sys2Proof.Machine

/-! ### Operand forms -/

theorem ctxOperand_ok_iff {c : CtxIx} {s : State} {x : Context} :
    ctxOperand c s = .ok x ↔ s.ctxs[c.toNat]? = some x := by
  unfold ctxOperand; split <;> simp_all

theorem ctxOperand_error_iff {c : CtxIx} {s : State} {e : ErrCode} :
    ctxOperand c s = .error e ↔ s.nctx ≤ c.toNat ∧ e = .ctx := by
  unfold ctxOperand
  cases h : s.ctxs[c.toNat]? with
  | some x =>
    have := (List.getElem?_eq_some_iff.mp h).1
    simp [State.nctx]; intro; omega
  | none => simpa [State.nctx, eq_comm] using fun _ => List.getElem?_eq_none_iff.mp h

theorem liveOperand_ok_iff {c : CtxIx} {s : State} {x : Context} :
    liveOperand c s = .ok x ↔ s.ctxs[c.toNat]? = some x ∧ x.cst ≠ .uninit := by
  unfold liveOperand ctxOperand
  cases s.ctxs[c.toNat]? with
  | none => simp
  | some y =>
    by_cases hy : y.cst = .uninit
    · simp only [hy, if_true]
      constructor
      · intro h; cases h
      · rintro ⟨h, h'⟩; cases h; exact absurd hy h'
    · simp only [hy, if_false]
      constructor
      · intro h; cases h; exact ⟨rfl, hy⟩
      · rintro ⟨h, -⟩; cases h; rfl

theorem liveOperand_error_iff {c : CtxIx} {s : State} {e : ErrCode} :
    liveOperand c s = .error e ↔
      (s.nctx ≤ c.toNat ∧ e = .ctx) ∨
        ∃ x, s.ctxs[c.toNat]? = some x ∧ x.cst = .uninit ∧ e = .uninit := by
  unfold liveOperand
  cases h : ctxOperand c s with
  | error e' =>
    obtain ⟨hle, rfl⟩ := ctxOperand_error_iff.mp h
    have hn : s.ctxs[c.toNat]? = none := List.getElem?_eq_none_iff.mpr hle
    simp [hn, hle, eq_comm]
  | ok y =>
    have hy := ctxOperand_ok_iff.mp h
    have hlt : c.toNat < s.nctx := (List.getElem?_eq_some_iff.mp hy).1
    have hno : ¬ s.nctx ≤ c.toNat := by omega
    by_cases hu : y.cst = .uninit <;> simp [hu, hy, hno, eq_comm (b := e)]

theorem widthOperand_ok_iff {wid : BitVec 2} {w : Width} :
    widthOperand wid = .ok w ↔ (wid = 0b01#2 ∧ w = .narrow) ∨ (wid = 0b10#2 ∧ w = .wide) := by
  revert wid
  cases w <;> decide

theorem widthOperand_error_iff {wid : BitVec 2} {e : ErrCode} :
    widthOperand wid = .error e ↔ (wid = 0b00#2 ∨ wid = 0b11#2) ∧ e = .width := by
  revert wid
  cases e <;> decide

theorem sizeOperand_ok_iff {olen : BitVec 7} {w : Width} {u : Unit} :
    sizeOperand olen w = .ok u ↔ olen.toNat = w.digestBytes := by
  unfold sizeOperand; split <;> simp_all

theorem sizeOperand_error_iff {olen : BitVec 7} {w : Width} {e : ErrCode} :
    sizeOperand olen w = .error e ↔ olen.toNat ≠ w.digestBytes ∧ e = .size := by
  unfold sizeOperand; split <;> simp_all [eq_comm]

/-! ### The command frame -/

/-- Everything a checked command can do: be dropped, have its effect, or raise its error. -/
theorem command_cases {w : Word} {body : State → Except ErrCode State} {s : State}
    {o : Host.Outcome State Fault Refusal} (h : command w body s = o) :
    (s.err ≠ .none ∧ o = .next s) ∨
      (s.err = .none ∧ ∃ t, body s = .ok t ∧ o = .next t) ∨
      (s.err = .none ∧ ∃ e, body s = .error e ∧
        o = .next { s with err := e, errInfo := w }) := by
  subst h
  unfold command
  by_cases hs : s.err = .none
  · cases hb : body s with
    | ok t => exact .inr (.inl ⟨hs, t, rfl, by simp [hs]⟩)
    | error e => exact .inr (.inr ⟨hs, e, rfl, by simp [hs, raise_of_none s hs]⟩)
  · exact .inl ⟨hs, by simp [hs]⟩

theorem command_of_error {w : Word} {body : State → Except ErrCode State} {s : State}
    (h : s.err ≠ .none) : command w body s = .next s := by simp [command, h]

theorem command_of_ok {w : Word} {body : State → Except ErrCode State} {s t : State}
    (h : s.err = .none) (hb : body s = .ok t) : command w body s = .next t := by
  simp [command, h, hb]

theorem command_of_check {w : Word} {body : State → Except ErrCode State} {s : State} {e : ErrCode}
    (h : s.err = .none) (hb : body s = .error e) :
    command w body s = .next { s with err := e, errInfo := w } := by
  simp [command, h, hb, raise_of_none s h]

/-! ### Bodies: when the checks pass, and the effect then -/

theorem initBody_ok_iff {c : CtxIx} {wid : BitVec 2} {s t : State} :
    initBody c wid s = .ok t ↔ ∃ x w, s.ctxs[c.toNat]? = some x ∧ widthOperand wid = .ok w ∧
      t = s.putCtx c (Context.fresh { x with wid := w }) := by
  unfold initBody
  cases hx : ctxOperand c s with
  | error e =>
    have hn := List.getElem?_eq_none_iff.mpr (ctxOperand_error_iff.mp hx).1
    simp [bind, Except.bind, hn]
  | ok x =>
    have := ctxOperand_ok_iff.mp hx
    cases hw : widthOperand wid <;>
      simp [bind, Except.bind, pure, Except.pure, this, eq_comm (b := t)]

theorem resetBody_ok_iff {c : CtxIx} {s t : State} :
    resetBody c s = .ok t ↔
      ∃ x, s.ctxs[c.toNat]? = some x ∧ x.cst ≠ .uninit ∧ t = s.putCtx c x.fresh := by
  unfold resetBody
  cases hx : liveOperand c s with
  | error e =>
    have hno : ∀ x, ¬ (s.ctxs[c.toNat]? = some x ∧ x.cst ≠ .uninit) := fun x h => by
      rw [liveOperand_ok_iff.mpr h] at hx; cases hx
    simp only [bind, Except.bind, reduceCtorEq, false_iff, not_exists]
    exact fun x h => hno x ⟨h.1, h.2.1⟩
  | ok x =>
    obtain ⟨h1, h2⟩ := liveOperand_ok_iff.mp hx
    simp [bind, Except.bind, pure, Except.pure, h1, h2, eq_comm (b := t)]

theorem absorbBody_ok_iff {c : CtxIx} {b : Byte} {s t : State} :
    absorbBody c b s = .ok t ↔
      ∃ x, s.ctxs[c.toNat]? = some x ∧ x.cst ≠ .uninit ∧ t = s.putCtx c (x.absorb b) := by
  unfold absorbBody
  cases hx : liveOperand c s with
  | error e =>
    have hno : ∀ x, ¬ (s.ctxs[c.toNat]? = some x ∧ x.cst ≠ .uninit) := fun x h => by
      rw [liveOperand_ok_iff.mpr h] at hx; cases hx
    simp only [bind, Except.bind, reduceCtorEq, false_iff, not_exists]
    exact fun x h => hno x ⟨h.1, h.2.1⟩
  | ok x =>
    obtain ⟨h1, h2⟩ := liveOperand_ok_iff.mp hx
    simp [bind, Except.bind, pure, Except.pure, h1, h2, eq_comm (b := t)]

theorem finalBody_ok_iff {c : CtxIx} {olen : BitVec 7} {s t : State} :
    finalBody c olen s = .ok t ↔
      ∃ x, s.ctxs[c.toNat]? = some x ∧ x.cst ≠ .uninit ∧ olen.toNat = x.wid.digestBytes ∧
        t = (s.deliver c x.wid x.finish).putCtx c x.fresh := by
  unfold finalBody
  cases hx : liveOperand c s with
  | error e =>
    have hno : ∀ x, ¬ (s.ctxs[c.toNat]? = some x ∧ x.cst ≠ .uninit) := fun x h => by
      rw [liveOperand_ok_iff.mpr h] at hx; cases hx
    simp only [bind, Except.bind, reduceCtorEq, false_iff, not_exists]
    exact fun x h => hno x ⟨h.1, h.2.1⟩
  | ok x =>
    obtain ⟨h1, h2⟩ := liveOperand_ok_iff.mp hx
    by_cases hs : olen.toNat = x.wid.digestBytes <;>
      simp [bind, Except.bind, pure, Except.pure, sizeOperand, h1, h2, hs, eq_comm (b := t)]

theorem cloneBody_ok_iff {d src : CtxIx} {s t : State} :
    cloneBody d src s = .ok t ↔
      ∃ x, d.toNat < s.nctx ∧ s.ctxs[src.toNat]? = some x ∧ x.cst ≠ .uninit ∧
        t = s.putCtx d x := by
  unfold cloneBody
  cases hd : ctxOperand d s with
  | error e =>
    have := (ctxOperand_error_iff.mp hd).1
    simp only [bind, Except.bind, reduceCtorEq, false_iff, not_exists]
    intro x h; omega
  | ok y =>
    have hlt : d.toNat < s.nctx :=
      (List.getElem?_eq_some_iff.mp (ctxOperand_ok_iff.mp hd)).1
    cases hx : liveOperand src s with
    | error e =>
      have hno : ∀ x, ¬ (s.ctxs[src.toNat]? = some x ∧ x.cst ≠ .uninit) := fun x h => by
        rw [liveOperand_ok_iff.mpr h] at hx; cases hx
      simp only [bind, Except.bind, reduceCtorEq, false_iff, not_exists]
      exact fun x h => hno x ⟨h.2.1, h.2.2.1⟩
    | ok x =>
      obtain ⟨h1, h2⟩ := liveOperand_ok_iff.mp hx
      simp [bind, Except.bind, pure, Except.pure, hlt, h1, h2, eq_comm (b := t)]

/-! ### One context -/

/-- ABSORB on a context short of a full block. -/
theorem absorb_of_room {x : Context} {b : Byte} (h : x.buf.length ≠ 63) :
    x.absorb b = { x with buf := x.buf ++ [b], cst := .accum } := by
  simp [Context.absorb, Config.blockBytes, h]

/-- ABSORB of the byte that completes a block. -/
theorem absorb_of_full {x : Context} {b : Byte} (h : x.buf.length = 63) :
    x.absorb b =
      { x.consume (rev (ofList (x.buf ++ [b]))) 512 with buf := [], cst := .accum } := by
  simp [Context.absorb, Config.blockBytes, h, Context.consumeFull]

@[simp] theorem absorb_cst (x : Context) (b : Byte) : (x.absorb b).cst = .accum := by
  unfold Context.absorb; dsimp only; split <;> simp

@[simp] theorem absorb_wid (x : Context) (b : Byte) : (x.absorb b).wid = x.wid := by
  unfold Context.absorb; dsimp only; split <;> simp

end Sys2Proof.Machine
end

