-- ==== Sys2Proof/Laws/Bus.lean ====
section
/-! SUPPORT. What one bus event and one step can do. -/

namespace Sys2Proof.Machine

/-- A host address of the window and its offset (R51). -/
theorem offset?_eq_some_iff {s : State} {addr off : Nat} :
    s.offset? addr = some off ↔ addr = s.base + off ∧ off < 0x200 := by
  unfold State.offset?
  have hw : Config.windowBytes = 0x200 := rfl
  split
  · rename_i h; rw [hw] at h; simp; omega
  · rename_i h; rw [hw] at h; simp; omega

/-- Everything a write can do: raise E_BUS, or deliver a command word. -/
theorem writeWord_cases {off : Nat} {lanes : BitVec 4} {v : Word} {s : State}
    {o : Host.Outcome State Fault Refusal} (h : writeWord off lanes v s = o) :
    ((off ≠ 0 ∨ lanes ≠ 0b1111#4) ∧ o = .next (raise .bus (BitVec.ofNat 32 off) s)) ∨
      (off = 0 ∧ lanes = 0b1111#4 ∧ o = executeCommand v s) := by
  subst h
  unfold writeWord
  by_cases h1 : off % 4 ≠ 0 ∨ lanes ≠ 0b1111#4
  · refine .inl ⟨?_, by rw [if_pos h1]⟩
    rcases h1 with h1 | h1
    · left; rintro rfl; exact h1 rfl
    · exact .inr h1
  · rw [if_neg h1]
    by_cases h2 : off = 0
    · exact .inr ⟨h2, by simpa using (not_or.mp h1).2, by rw [if_pos h2]⟩
    · exact .inl ⟨.inl h2, by rw [if_neg h2]⟩

/-- Everything a delivered word can do: run as the command it is, or raise its error. -/
theorem executeCommand_cases {w : Word} {s : State} {o : Host.Outcome State Fault Refusal}
    (h : executeCommand w s = o) :
    (∃ i, decode w = .ok i ∧ exec i s = o) ∨
      ∃ e, decode w = .error e ∧ o = .next (raise (decodeErrorCode e) w s) := by
  subst h
  unfold executeCommand
  cases decode w with
  | ok i => exact .inl ⟨i, rfl, rfl⟩
  | error e => exact .inr ⟨e, rfl, rfl⟩

/-- Everything an event that the engine takes can do: answer a read, raise E_BUS, execute a command
word, reset. -/
theorem takeEvent_cases {e : BusEvent} {s t : State} (h : takeEvent e s = .next t) :
    (∃ off lanes, off < 0x200 ∧ e = .read (s.base + off) lanes ∧ t = answerRead off s) ∨
      (∃ off lanes v, off < 0x200 ∧ (off ≠ 0 ∨ lanes ≠ 0b1111#4) ∧
        e = .write (s.base + off) lanes v ∧ t = raise .bus (BitVec.ofNat 32 off) s) ∨
      (∃ v, e = .write s.base 0b1111#4 v ∧ executeCommand v s = .next t) ∨
      (e = .hwReset ∧ t = hardwareReset s) := by
  cases e with
  | hwReset => cases h; exact .inr (.inr (.inr ⟨rfl, rfl⟩))
  | read addr lanes =>
    cases ho : s.offset? addr with
    | none => simp [takeEvent, ho] at h
    | some off =>
      obtain ⟨rfl, hoff⟩ := offset?_eq_some_iff.mp ho
      simp only [takeEvent, ho] at h; cases h
      exact .inl ⟨off, lanes, hoff, rfl, rfl⟩
  | write addr lanes v =>
    cases ho : s.offset? addr with
    | none => simp [takeEvent, ho] at h
    | some off =>
      obtain ⟨rfl, hoff⟩ := offset?_eq_some_iff.mp ho
      simp only [takeEvent, ho] at h
      rcases writeWord_cases h with ⟨hbad, hn⟩ | ⟨rfl, rfl, hc⟩
      · cases hn; exact .inr (.inl ⟨off, lanes, v, hoff, hbad, rfl, rfl⟩)
      · exact .inr (.inr (.inl ⟨v, rfl, hc.symm⟩))

/-- The write of a command word delivers it. -/
theorem takeEvent_cmdWrite (s t : State) (w : Word) (h : t.base = s.base) :
    takeEvent (cmdWrite s w) t = executeCommand w t := by
  have : t.offset? s.base = some 0 := offset?_eq_some_iff.mpr ⟨by omega, by decide⟩
  simp [takeEvent, cmdWrite, this, writeWord]

/-- A step with nothing pending is idle (R214). -/
theorem step_of_idle {s : State} (h : s.pending = []) : step s = .next s := by simp [step, h]

/-- A step that goes on is idle or takes the first pending event. -/
theorem step_cases {s t : State} (h : step s = .next t) :
    (s.pending = [] ∧ t = s) ∨
      ∃ e rest, s.pending = e :: rest ∧ takeEvent e { s with pending := rest } = .next t := by
  unfold step at h
  split at h
  · cases h; exact .inl ⟨‹_›, rfl⟩
  · exact .inr ⟨_, _, ‹_›, h⟩

/-- A step with an event pending takes it. -/
theorem step_of_event {s : State} {e : BusEvent} {rest : List BusEvent} (h : s.pending = e :: rest) :
    step s = takeEvent e { s with pending := rest } := by simp [step, h]

/-- A step whose next event is a write to the window. -/
theorem step_write {s : State} {off : Nat} {lanes : BitVec 4} {v : Word} {rest : List BusEvent}
    (hp : s.pending = .write (s.base + off) lanes v :: rest) (h : off < 0x200) :
    step s = writeWord off lanes v { s with pending := rest } := by
  have ho : ({ s with pending := rest } : State).offset? (s.base + off) = some off :=
    offset?_eq_some_iff.mpr ⟨rfl, h⟩
  rw [step_of_event hp]
  simp [takeEvent, ho]

/-- A step whose next event is a read of the window. -/
theorem step_read {s : State} {off : Nat} {lanes : BitVec 4} {rest : List BusEvent}
    (hp : s.pending = .read (s.base + off) lanes :: rest) (h : off < 0x200) :
    step s = .next (answerRead off { s with pending := rest }) := by
  have ho : ({ s with pending := rest } : State).offset? (s.base + off) = some off :=
    offset?_eq_some_iff.mpr ⟨rfl, h⟩
  rw [step_of_event hp]
  simp [takeEvent, ho]

/-- A run goes on from its first step. -/
theorem run_succ_of_step {s t : State} (k : Nat) (h : step s = .next t) :
    Host.Core.run Sys2Proof.core (k + 1) s = Host.Core.run Sys2Proof.core k t := by
  have h' : Sys2Proof.core.step s = .next t := h
  simp only [Host.Core.run, h']

end Sys2Proof.Machine
end

