-- ==== Sys2Proof/Laws/Bytes.lean ====
section
/-! SUPPORT. The laws of the byte accessors: reading what was packed, and equality byte by byte. -/

namespace Sys2Proof.Machine

/-- Bit `j` of a pack: it belongs to the last field but `j / k`. -/
theorem getLsbD_pack {k : Nat} (hk : 0 < k) (f : Nat → BitVec k) (n j : Nat) (hj : j < 512) :
    (pack f n).getLsbD j = (decide (j < k * n) && (f (n - 1 - j / k)).getLsbD (j % k)) := by
  induction n generalizing j with
  | zero => simp [pack]
  | succ n ih =>
    simp only [pack, BitVec.getLsbD_or, BitVec.getLsbD_shiftLeft, BitVec.getLsbD_setWidth, hj,
      decide_true, Bool.true_and]
    by_cases hlt : j < k
    · have h1 : j / k = 0 := Nat.div_eq_of_lt hlt
      have h2 : j < k * (n + 1) := by nlinarith
      simp [hlt, h1, h2, Nat.mod_eq_of_lt hlt]
    · have hge : k ≤ j := Nat.le_of_not_lt hlt
      rw [ih (j - k) (by omega), BitVec.getLsbD_of_ge (f n) j hge]
      have h1 : j / k = (j - k) / k + 1 := by
        rw [Nat.div_eq_sub_div hk hge]
      have h2 : (j - k) % k = j % k := (Nat.mod_eq_sub_mod hge).symm
      have h3 : (j - k < k * n) ↔ (j < k * (n + 1)) := by
        rw [Nat.mul_succ]; omega
      have h4 : n - 1 - (j - k) / k = n + 1 - 1 - j / k := by omega
      simp [hlt, h2, h3, h4]

/-- Byte `i` of the value built byte by byte. -/
@[simp] theorem byte_ofBytes (f : Nat → Byte) (i : Nat) (hi : i < 64) :
    byte (ofBytes f) i = f i := by
  apply BitVec.eq_of_getLsbD_eq
  intro j hj
  have h1 : (8 * (63 - i) + j) / 8 = 63 - i := by omega
  have h2 : (8 * (63 - i) + j) % 8 = j := by omega
  have h3 : 63 - (63 - i) = i := by omega
  have h4 : 8 * (63 - i) + j < 512 := by omega
  simp only [byte, ofBytes, BitVec.getLsbD_extractLsb', hj, decide_true, Bool.true_and]
  rw [getLsbD_pack (by decide) f 64 _ h4]
  simp [h1, h2, h3, h4]

/-- Word `w` of the value built word by word. -/
@[simp] theorem word64_ofWords (f : Nat → Dword) (w : Nat) (hw : w < 8) :
    word64 (ofWords f) w = f w := by
  apply BitVec.eq_of_getLsbD_eq
  intro j hj
  have h1 : (64 * (7 - w) + j) / 64 = 7 - w := by omega
  have h2 : (64 * (7 - w) + j) % 64 = j := by omega
  have h3 : 7 - (7 - w) = w := by omega
  have h4 : 64 * (7 - w) + j < 512 := by omega
  simp only [word64, ofWords, BitVec.getLsbD_extractLsb', hj, decide_true, Bool.true_and]
  rw [getLsbD_pack (by decide) f 8 _ h4]
  simp [h1, h2, h3, h4]

/-- Two values with the same 64 bytes are equal. -/
theorem eq_of_byte_eq {a b : Bytes64} (h : ∀ i < 64, byte a i = byte b i) : a = b := by
  apply BitVec.eq_of_getLsbD_eq
  intro k hk
  have hb := congrArg (fun v : Byte => v.getLsbD (k % 8)) (h (63 - k / 8) (by omega))
  have h1 : 8 * (63 - (63 - k / 8)) + k % 8 = k := by omega
  simpa [byte, BitVec.getLsbD_extractLsb', h1, Nat.mod_lt] using hb

/-- Two values with the same eight words are equal. -/
theorem eq_of_word64_eq {a b : Bytes64} (h : ∀ w < 8, word64 a w = word64 b w) : a = b := by
  apply BitVec.eq_of_getLsbD_eq
  intro k hk
  have hb := congrArg (fun v : Dword => v.getLsbD (k % 64)) (h (7 - k / 64) (by omega))
  have h1 : 64 * (7 - (7 - k / 64)) + k % 64 = k := by omega
  simpa [word64, BitVec.getLsbD_extractLsb', h1, Nat.mod_lt] using hb

@[simp] theorem byte_xorCombine (a b : Bytes64) (i : Nat) :
    byte (xorCombine a b) i = byte a i ^^^ byte b i := by
  apply BitVec.eq_of_getLsbD_eq
  intro j hj
  simp [byte, xorCombine, hj]

@[simp] theorem word64_xorCombine (a b : Bytes64) (w : Nat) :
    word64 (xorCombine a b) w = word64 a w ^^^ word64 b w := by
  apply BitVec.eq_of_getLsbD_eq
  intro j hj
  simp [word64, xorCombine, hj]

theorem byte_rev (b : Bytes64) (i : Nat) (hi : i < 64) : byte (rev b) i = byte b (63 - i) := by
  simp [rev, hi]

theorem byte_ofList (l : List Byte) (i : Nat) (hi : i < 64) : byte (ofList l) i = l.getD i 0 := by
  simp [ofList, hi]

@[simp] theorem length_toList (b : Bytes64) : (toList b).length = 64 := by simp [toList]

theorem getElem?_toList (b : Bytes64) (i : Nat) (hi : i < 64) :
    (toList b)[i]? = some (byte b i) := by
  simp [toList, hi]

end Sys2Proof.Machine
end

