-- ==== Sys2Proof/Laws/Decode.lean ====
section
/-! SUPPORT. What the decoder answers, in terms of the opcode and the reserved bits. -/

namespace Sys2Proof

/-- The opcodes split into the seven defined ones and the rest (R88, R89). -/
theorem opField_cases (w : Word) :
    opField w = 0#4 ∨ opField w = 1#4 ∨ opField w = 2#4 ∨ opField w = 3#4 ∨ opField w = 4#4 ∨
      opField w = 5#4 ∨ opField w = 6#4 ∨ 7 ≤ (opField w).toNat := by
  generalize opField w = op
  revert op
  decide

theorem selectCommand_eq_none_iff {w : Word} :
    selectCommand w = none ↔ 0x7 ≤ (opField w).toNat := by
  rcases opField_cases w with h | h | h | h | h | h | h | h
  case inr.inr.inr.inr.inr.inr.inr =>
    refine ⟨fun _ => h, fun _ => ?_⟩
    unfold selectCommand
    split <;> first | rfl | (rename_i h'; rw [h'] at h; exact absurd h (by decide))
  all_goals simp [selectCommand, h]

/-- A word is rejected for its opcode exactly when the opcode is 0x7..0xF. -/
theorem decode_illegalOpcode_iff {w : Word} :
    decode w = .error .illegalOpcode ↔ 0x7 ≤ (opField w).toNat := by
  rw [← selectCommand_eq_none_iff]
  unfold decode
  cases selectCommand w with
  | none => simp
  | some i =>
    dsimp only
    split <;> simp

/-- A word is rejected for its reserved bits exactly when its opcode is defined and one is set. -/
theorem decode_reservedBits_iff {w : Word} :
    decode w = .error .reservedBits ↔
      (opField w).toNat < 0x7 ∧ w &&& reservedMask (opField w) ≠ 0 := by
  have hlt : (opField w).toNat < 0x7 ↔ selectCommand w ≠ none := by
    rw [Ne, selectCommand_eq_none_iff]; omega
  rw [hlt]
  unfold decode
  cases selectCommand w with
  | none => simp
  | some i =>
    dsimp only
    split
    · rename_i h; simp [h]
    · rename_i h; exact ⟨fun _ => ⟨by simp, h⟩, fun _ => rfl⟩

/-- A word is a command exactly when its opcode selects it and no reserved bit is set. -/
theorem decode_eq_ok_iff {w : Word} {i : Instr} :
    decode w = .ok i ↔ selectCommand w = some i ∧ w &&& reservedMask (opField w) = 0 := by
  unfold decode
  cases selectCommand w with
  | none => simp
  | some j =>
    dsimp only
    split
    · rename_i h; simp [h]
    · rename_i h; exact ⟨fun h' => (nomatch h'), fun h' => absurd h'.2 h⟩

end Sys2Proof
end

