-- ==== Sys2Proof/Laws/Exec.lean ====
section
/-! SUPPORT. Inversion of exec: everything a command that answers a next state can have done. Later
proofs split on it and never unfold a meaning. -/

namespace Sys2Proof.Machine

/-- Why a command is rejected: the error code and what it says of the command (R200, R201). -/
inductive Rejection (n : Nat) : Instr → ErrCode → Prop where
  | ctx {i} (h : i.contextsExist n = false) : Rejection n i .ctx
  | width {c wid} (h : c.toNat < n) (hw : wid = 0b00#2 ∨ wid = 0b11#2) :
      Rejection n (.init c wid) .width
  | resetUninit {c} (h : c.toNat < n) : Rejection n (.reset c) .uninit
  | absorbUninit {c b} (h : c.toNat < n) : Rejection n (.absorb c b) .uninit
  | finalUninit {c olen} (h : c.toNat < n) : Rejection n (.final c olen) .uninit
  | cloneUninit {d src} (hd : d.toNat < n) (hs : src.toNat < n) : Rejection n (.clone d src) .uninit
  | size {c olen} (h : c.toNat < n) : Rejection n (.final c olen) .size

/-- What a command did: `Did i s t` holds of every next state `t` of `i` in `s`. -/
inductive Did : Instr → State → State → Prop where
  /-- Dropped while an error is latched (R203). -/
  | dropped {i s} (h : s.err ≠ .none) (hi : i ≠ .errack) : Did i s s
  /-- Rejected by its first failing check (R202). -/
  | rejected {i s e} (h : s.err = .none) (hr : Rejection s.nctx i e) :
      Did i s { s with err := e, errInfo := encode i }
  | nop {s} (h : s.err = .none) : Did .nop s s
  | errack {s} : Did .errack s (acknowledge s)
  | init {s c wid w x} (h : s.err = .none) (hx : s.ctxs[c.toNat]? = some x)
      (hw : (wid = 0b01#2 ∧ w = .narrow) ∨ (wid = 0b10#2 ∧ w = .wide)) :
      Did (.init c wid) s (s.putCtx c (Context.fresh { x with wid := w }))
  | reset {s c x} (h : s.err = .none) (hx : s.ctxs[c.toNat]? = some x) (hu : x.cst ≠ .uninit) :
      Did (.reset c) s (s.putCtx c x.fresh)
  | absorb {s c b x} (h : s.err = .none) (hx : s.ctxs[c.toNat]? = some x)
      (hu : x.cst ≠ .uninit) : Did (.absorb c b) s (s.putCtx c (x.absorb b))
  | final {s c olen x} (h : s.err = .none) (hx : s.ctxs[c.toNat]? = some x) (hu : x.cst ≠ .uninit)
      (hz : olen.toNat = x.wid.digestBytes) :
      Did (.final c olen) s ((s.deliver c x.wid x.finish).putCtx c x.fresh)
  | clone {s d src x} (h : s.err = .none) (hd : d.toNat < s.nctx)
      (hx : s.ctxs[src.toNat]? = some x) (hu : x.cst ≠ .uninit) :
      Did (.clone d src) s (s.putCtx d x)

/-- A context that can be read exists. -/
theorem lt_nctx_of_getElem? {s : State} {c : CtxIx} {x : Context}
    (h : s.ctxs[c.toNat]? = some x) : c.toNat < s.nctx :=
  (List.getElem?_eq_some_iff.mp h).1

/-- The error of `liveOperand`, as a rejection of a command on that context. -/
theorem rejection_of_liveOperand {s : State} {c : CtxIx} {e : ErrCode} {i : Instr}
    (h : liveOperand c s = .error e) (hctx : s.nctx ≤ c.toNat → i.contextsExist s.nctx = false)
    (huninit : c.toNat < s.nctx → Rejection s.nctx i .uninit) : Rejection s.nctx i e := by
  rcases liveOperand_error_iff.mp h with ⟨hle, rfl⟩ | ⟨x, hx, -, rfl⟩
  · exact .ctx (hctx hle)
  · exact huninit (lt_nctx_of_getElem? hx)

theorem rejection_of_initBody {s : State} {c : CtxIx} {wid : BitVec 2} {e : ErrCode}
    (h : initBody c wid s = .error e) : Rejection s.nctx (.init c wid) e := by
  unfold initBody at h
  cases hx : ctxOperand c s with
  | error e' =>
    rw [hx] at h; cases h
    obtain ⟨hle, rfl⟩ := ctxOperand_error_iff.mp hx
    exact .ctx (by simp [Instr.contextsExist, hle])
  | ok x =>
    rw [hx] at h
    cases hw : widthOperand wid with
    | error e' =>
      simp only [bind, Except.bind, hw] at h; cases h
      obtain ⟨hwid, rfl⟩ := widthOperand_error_iff.mp hw
      exact .width (lt_nctx_of_getElem? (ctxOperand_ok_iff.mp hx)) hwid
    | ok w => simp [bind, Except.bind, hw, pure, Except.pure] at h

theorem rejection_of_resetBody {s : State} {c : CtxIx} {e : ErrCode}
    (h : resetBody c s = .error e) : Rejection s.nctx (.reset c) e := by
  unfold resetBody at h
  cases hx : liveOperand c s with
  | error e' =>
    rw [hx] at h; cases h
    exact rejection_of_liveOperand hx (fun hle => by simp [Instr.contextsExist, hle]) .resetUninit
  | ok x => rw [hx] at h; cases h

theorem rejection_of_absorbBody {s : State} {c : CtxIx} {b : Byte} {e : ErrCode}
    (h : absorbBody c b s = .error e) : Rejection s.nctx (.absorb c b) e := by
  unfold absorbBody at h
  cases hx : liveOperand c s with
  | error e' =>
    rw [hx] at h; cases h
    exact rejection_of_liveOperand hx (fun hle => by simp [Instr.contextsExist, hle]) .absorbUninit
  | ok x => rw [hx] at h; cases h

theorem rejection_of_finalBody {s : State} {c : CtxIx} {olen : BitVec 7} {e : ErrCode}
    (h : finalBody c olen s = .error e) : Rejection s.nctx (.final c olen) e := by
  unfold finalBody at h
  cases hx : liveOperand c s with
  | error e' =>
    rw [hx] at h; cases h
    exact rejection_of_liveOperand hx (fun hle => by simp [Instr.contextsExist, hle]) .finalUninit
  | ok x =>
    rw [hx] at h
    cases hz : sizeOperand olen x.wid with
    | ok u => simp [bind, Except.bind, hz, pure, Except.pure] at h
    | error e' =>
      simp only [bind, Except.bind, hz] at h; cases h
      obtain ⟨-, rfl⟩ := sizeOperand_error_iff.mp hz
      exact .size (lt_nctx_of_getElem? (liveOperand_ok_iff.mp hx).1)

theorem rejection_of_cloneBody {s : State} {d src : CtxIx} {e : ErrCode}
    (h : cloneBody d src s = .error e) : Rejection s.nctx (.clone d src) e := by
  unfold cloneBody at h
  cases hd : ctxOperand d s with
  | error e' =>
    rw [hd] at h; cases h
    obtain ⟨hle, rfl⟩ := ctxOperand_error_iff.mp hd
    exact .ctx (by simp [Instr.contextsExist, hle])
  | ok y =>
    have hlt := lt_nctx_of_getElem? (ctxOperand_ok_iff.mp hd)
    rw [hd] at h
    cases hx : liveOperand src s with
    | error e' =>
      simp only [bind, Except.bind, hx] at h; cases h
      exact rejection_of_liveOperand hx (fun hle => by simp [Instr.contextsExist, hle])
        (.cloneUninit hlt)
    | ok x => simp [bind, Except.bind, hx, pure, Except.pure] at h

/-- The command frame, given what the body does when it succeeds and when it fails. -/
theorem did_of_command {i : Instr} {body : State → Except ErrCode State} {s t : State}
    (h : command (encode i) body s = .next t) (hi : i ≠ .errack)
    (hok : s.err = .none → body s = .ok t → Did i s t)
    (herr : ∀ e, body s = .error e → Rejection s.nctx i e) : Did i s t := by
  rcases command_cases h with ⟨hs, ho⟩ | ⟨hs, u, hb, ho⟩ | ⟨hs, e, hb, ho⟩ <;> cases ho
  · exact .dropped hs hi
  · exact hok hs hb
  · exact .rejected hs (herr e hb)

/-- Everything a command that answers a next state can have done. -/
theorem did_of_exec {i : Instr} {s t : State} (h : exec i s = .next t) : Did i s t := by
  cases i with
  | nop =>
    cases h
    by_cases hs : s.err = .none
    · exact .nop hs
    · exact .dropped hs (by simp)
  | errack => cases h; exact .errack
  | init c wid =>
    refine did_of_command h (by simp) (fun hs hb => ?_) fun e => rejection_of_initBody
    obtain ⟨x, w, hx, hw, rfl⟩ := initBody_ok_iff.mp hb
    exact .init hs hx (widthOperand_ok_iff.mp hw)
  | reset c =>
    refine did_of_command h (by simp) (fun hs hb => ?_) fun e => rejection_of_resetBody
    obtain ⟨x, hx, hu, rfl⟩ := resetBody_ok_iff.mp hb
    exact .reset hs hx hu
  | absorb c b =>
    refine did_of_command h (by simp) (fun hs hb => ?_) fun e => rejection_of_absorbBody
    obtain ⟨x, hx, hu, rfl⟩ := absorbBody_ok_iff.mp hb
    exact .absorb hs hx hu
  | final c olen =>
    refine did_of_command h (by simp) (fun hs hb => ?_) fun e => rejection_of_finalBody
    obtain ⟨x, hx, hu, hz, rfl⟩ := finalBody_ok_iff.mp hb
    exact .final hs hx hu hz
  | clone d src =>
    refine did_of_command h (by simp) (fun hs hb => ?_) fun e => rejection_of_cloneBody
    obtain ⟨x, hd, hx, hu, rfl⟩ := cloneBody_ok_iff.mp hb
    exact .clone hs hd hx hu

/-! ### Commands and the queue -/

/-- A command whose body does not look at the pending events does not either. -/
theorem command_pending {w : Word} {body : State → Except ErrCode State} {s t : State}
    (p : List BusEvent)
    (hb : body { s with pending := p } = (body s).map fun t => { t with pending := p })
    (h : command w body s = .next t) :
    command w body { s with pending := p } = .next { t with pending := p } := by
  unfold command at h ⊢
  rw [hb]
  by_cases hs : s.err = .none
  · rw [if_pos hs] at h
    rw [if_pos (by exact hs)]
    cases hbs : body s with
    | ok u => rw [hbs] at h; cases h; rfl
    | error e => rw [hbs] at h; cases h; unfold raise; simp [Except.map, hs]
  · rw [if_neg hs] at h
    rw [if_neg (by exact hs)]
    cases h; rfl

/-- What a command does does not depend on the pending events. -/
theorem exec_pending {i : Instr} {s t : State} (p : List BusEvent) (h : exec i s = .next t) :
    exec i { s with pending := p } = .next { t with pending := p } := by
  have hc : ∀ c, ctxOperand c { s with pending := p } = ctxOperand c s := fun _ => rfl
  have hl : ∀ c, liveOperand c { s with pending := p } = liveOperand c s := fun _ => rfl
  cases i with
  | nop => cases h; rfl
  | errack =>
    cases h
    show Host.Outcome.next _ = Host.Outcome.next _
    unfold acknowledge
    by_cases hs : s.err = .none <;> simp [hs]
  | init c wid =>
    refine command_pending p ?_ h
    unfold initBody; rw [hc]
    cases ctxOperand c s <;> cases widthOperand wid <;> rfl
  | reset c =>
    refine command_pending p ?_ h
    unfold resetBody; rw [hl]
    cases liveOperand c s <;> rfl
  | absorb c b =>
    refine command_pending p ?_ h
    unfold absorbBody; rw [hl]
    cases liveOperand c s <;> rfl
  | clone d src =>
    refine command_pending p ?_ h
    unfold cloneBody; rw [hl, hc]
    cases ctxOperand d s <;> cases liveOperand src s <;> rfl
  | final c olen =>
    refine command_pending p ?_ h
    unfold finalBody; rw [hl]
    cases liveOperand c s with
    | error e => rfl
    | ok x => simp only [bind, Except.bind]; cases sizeOperand olen x.wid <;> rfl

end Sys2Proof.Machine
end

