-- ==== Sys2Proof/Laws/PerInstr.lean ====
section
/-! SUPPORT. Per instruction: the encoding has the opcode of its row of spec/opcode_table.json and no
reserved bit (spec/30_encoding.md R87, R88). -/

namespace Sys2Proof.Laws.EncodesCleanly

/-- The opcode of a command (R88). -/
def opcode : Instr → BitVec 4
  | .nop => 0x0
  | .init _ _ => 0x1
  | .reset _ => 0x2
  | .absorb _ _ => 0x3
  | .final _ _ => 0x4
  | .clone _ _ => 0x5
  | .errack => 0x6

/-- enc(i) carries the command's opcode and no bit of its reserved mask. -/
def Statement (i : Instr) : Prop :=
  opField (encode i) = opcode i ∧ encode i &&& reservedMask (opcode i) = 0

theorem nop : Statement .nop := by unfold Statement; decide

theorem init (c : CtxIx) (wid : BitVec 2) : Statement (.init c wid) := by
  unfold Statement; revert c wid; decide +kernel

theorem reset (c : CtxIx) : Statement (.reset c) := by
  unfold Statement; revert c; decide +kernel

theorem absorb (c : CtxIx) (b : Byte) : Statement (.absorb c b) := by
  constructor
  · apply BitVec.eq_of_getLsbD_eq
    intro i hi
    interval_cases i <;> simp [opField, encode, atCtx, opcode]
  · apply BitVec.eq_of_getLsbD_eq
    intro i hi
    interval_cases i <;> simp [encode, atCtx, reservedMask, opcode]

theorem final (c : CtxIx) (olen : BitVec 7) : Statement (.final c olen) := by
  constructor
  · apply BitVec.eq_of_getLsbD_eq
    intro i hi
    interval_cases i <;> simp [opField, encode, atCtx, opcode]
  · apply BitVec.eq_of_getLsbD_eq
    intro i hi
    interval_cases i <;> simp [encode, atCtx, reservedMask, opcode]

theorem clone (d s : CtxIx) : Statement (.clone d s) := by
  unfold Statement; revert d s; decide +kernel

theorem errack : Statement .errack := by unfold Statement; decide

end Sys2Proof.Laws.EncodesCleanly
end

