-- ==== Sys2Proof/Laws/Views.lean ====
section
/-! SUPPORT. The register views bit by bit (spec/10_state.md R30, R32, spec/20_memory.md R57). -/

namespace Sys2Proof.Machine

/-- STATUS, bit by bit (R30). -/
theorem getLsbD_status (s : State) (k : Nat) :
    s.status.getLsbD k =
      if k < 4 then s.err.code.getLsbD k
      else if k < 8 then false
      else if k < 9 then (BitVec.ofBool s.dv).getLsbD (k - 8)
      else if k < 11 then (dwidCode s.dwid).getLsbD (k - 9)
      else if k < 12 then false
      else if k < 16 then s.dctx.getLsbD (k - 12)
      else s.nctxM1.getLsbD (k - 16) := by
  unfold State.status
  change BitVec.getLsbD (w := 12 + 4 + 4 + 1 + 2 + 1 + 4 + 4) _ k = _
  simp only [BitVec.getLsbD_append]
  split_ifs <;> first | rfl | omega | simp
  all_goals exact BitVec.getLsbD_of_ge _ _ (by omega)

/-- CTXSTAT of an initialised context, bit by bit (R32). -/
theorem getLsbD_stat {x : Context} (h : x.cst ≠ .uninit) (k : Nat) :
    x.stat.getLsbD k =
      if k < 2 then x.cst.code.getLsbD k
      else if k < 4 then x.wid.code.getLsbD (k - 2)
      else (BitVec.ofNat 6 x.buf.length).getLsbD (k - 4) := by
  have hx : x.stat = 0#22 ++ BitVec.ofNat 6 x.buf.length ++ x.wid.code ++ x.cst.code := by
    unfold Context.stat
    cases hc : x.cst <;> first | exact absurd hc h | rfl
  rw [hx]
  change BitVec.getLsbD (w := 22 + 6 + 2 + 2) _ k = _
  simp only [BitVec.getLsbD_append]
  split_ifs <;> first | rfl | omega | simp
  all_goals exact BitVec.getLsbD_of_ge _ _ (by omega)

/-- CTXSTAT of an UNINIT context reads 0 (R32). -/
theorem stat_of_uninit {x : Context} (h : x.cst = .uninit) : x.stat = 0 := by
  simp [Context.stat, h]

/-- DIGEST_W, bit by bit (R57). -/
theorem getLsbD_digestW (s : State) (k b : Nat) (hb : b < 32) :
    (s.digestW k).getLsbD b = (byte s.digest (4 * k + b / 8)).getLsbD (b % 8) := by
  unfold State.digestW
  change BitVec.getLsbD (w := 8 + 8 + 8 + 8) _ b = _
  simp only [BitVec.getLsbD_append]
  split_ifs
  · rw [show b / 8 = 0 by omega, show b % 8 = b by omega, Nat.add_zero]
  · rw [show b / 8 = 1 by omega, show b % 8 = b - 8 by omega]
  · rw [show b / 8 = 2 by omega, show b % 8 = b - 8 - 8 by omega]
  · rw [show b / 8 = 3 by omega, show b % 8 = b - 8 - 8 - 8 by omega]

end Sys2Proof.Machine
end

