-- ==== Sys2Proof/Tests/Slice0.lean ====
section
/-! SUPPORT. Tests of the model against the spec's own examples (spec/95_test_vectors.md and the examples
of the rules), and for each statement with hypotheses a concrete input that meets them. -/

namespace Sys2Proof.Tests

open Sys2Proof.Machine

/-! ### Well-formedness smoke tests -/

/-- R85: 0b00 is no width. -/
theorem test_wf_refuses_width_00 : (Instr.init 0 0b00#2).wellFormed 4 = false := by decide
/-- R85: 0b11 is no width. -/
theorem test_wf_refuses_width_11 : (Instr.init 0 0b11#2).wellFormed 4 = false := by decide
/-- R82: context 4 of 4. -/
theorem test_wf_refuses_context : (Instr.absorb 4 0x00).wellFormed 4 = false := by decide
/-- R83: source context 5 of 4. -/
theorem test_wf_refuses_source : (Instr.clone 0 5).wellFormed 4 = false := by decide
/-- R82: the last context of 16. -/
theorem test_wf_accepts : (Instr.init 15 0b10#2).wellFormed 16 = true ∧
    (Instr.clone 3 0).wellFormed 4 = true := by decide

/-! ### Decoding of words written out from R80 to R88 -/

theorem test_decode_nop : decode 0b0000_0000_0000_0000_0000_0000_0000_0000#32 = .ok .nop := by
  decide
theorem test_decode_init :
    decode 0b0001_1001_0000_0000_0000_0000_0000_0001#32 = .ok (.init 0b1001 0b01) := by decide
theorem test_decode_reset :
    decode 0b0010_0110_0000_0000_0000_0000_0000_0000#32 = .ok (.reset 0b0110) := by decide
theorem test_decode_absorb :
    decode 0b0011_0001_0000_0000_0000_0000_1000_0010#32 = .ok (.absorb 0b0001 0b1000_0010) := by
  decide
theorem test_decode_final :
    decode 0b0100_0010_0000_0000_0000_0000_0110_0001#32 = .ok (.final 0b0010 0b110_0001) := by decide
theorem test_decode_clone :
    decode 0b0101_0001_1000_0000_0000_0000_0000_0000#32 = .ok (.clone 0b0001 0b1000) := by decide
theorem test_decode_errack :
    decode 0b0110_0000_0000_0000_0000_0000_0000_0000#32 = .ok .errack := by decide
/-- R89: the first and the last illegal opcode. -/
theorem test_decode_illegal : decode 0x70000000 = .error .illegalOpcode ∧
    decode 0xFFFFFFFF = .error .illegalOpcode := by decide
/-- R87: the lowest and the highest reserved bit of ABSORB, and the CTX bits of NOP and ERRACK. -/
theorem test_decode_reserved : decode 0x30000100 = .error .reservedBits ∧
    decode 0x30800000 = .error .reservedBits ∧ decode 0x01000000 = .error .reservedBits ∧
    decode 0x68000000 = .error .reservedBits := by decide
/-- R91: the words of the programs P1 and P2 of spec/95. -/
theorem test_encode : encode (.init 0 1) = 0x10000001 ∧ encode (.absorb 0 0x68) = 0x30000068 ∧
    encode (.final 0 32) = 0x40000020 ∧ encode (.clone 1 0) = 0x51000000 := by decide
theorem test_decodeTableWord : decodeTableWord 32 0x12000002 = some (.init 2 2) ∧
    decodeTableWord 32 0x70000000 = none := by decide

/-! ### States the tests start from -/

/-- The state an outcome goes on with. -/
def nextOf : Host.Outcome State Fault Refusal → Option State
  | .next s => some s
  | .fault _ | .refused _ => none

/-- What STATUS, ERRINFO and CTXSTAT[0..3] read after an outcome. -/
def views (o : Host.Outcome State Fault Refusal) : Option (List Word) :=
  (nextOf o).map fun s => [0x004, 0x008, 0x010, 0x014, 0x018, 0x01C].map s.readWord

/-- A context that has absorbed `buf` and no full block. -/
def holding (w : Width) (buf : List Byte) : Context :=
  { cst := if buf = [] then .empty else .accum, wid := w, h := iv w, N := 0, sigma := 0, buf := buf }

/-- "hello world" in ASCII. -/
def helloWorld : List Byte :=
  [0x68, 0x65, 0x6C, 0x6C, 0x6F, 0x20, 0x77, 0x6F, 0x72, 0x6C, 0x64]

/-- Context 0 is narrow and EMPTY, 1 is wide with 63 bytes 0x61, 2 is narrow with "hello world", 3 is
UNINIT. -/
def ready : State :=
  { State.reset with
    ctxs := [holding .narrow [], holding .wide (List.replicate 63 0x61), holding .narrow helloWorld,
      Context.uninit] }

/-- The same with a latched E_SIZE. -/
def failed : State := { ready with err := .size, errInfo := 0x40000040 }

/-- A state whose digest bytes all differ. -/
def delivered : State :=
  { ready with
    digest := ofBytes fun i => BitVec.ofNat 8 i, dv := true, dwid := some .wide, dctx := 1 }

/-- `ready` with one more event pending. -/
def facing (e : BusEvent) (s : State := ready) : State := { s with pending := [e] }

/-! ### Commands, against section 2.6 of spec/95 -/

/-- V-CMD-1. -/
theorem test_nop : views (exec .nop State.reset) = some [0x00030000, 0, 0, 0, 0, 0] := by decide
/-- V-CMD-2: INIT from UNINIT. -/
theorem test_init : views (exec (.init 0 1) State.reset) = some [0x00030000, 0, 0x005, 0, 0, 0] := by
  decide
/-- V-CMD-8: INIT of a context that holds bytes, with a new width; the others stay. -/
theorem test_init_again : views (exec (.init 2 2) ready) =
    some [0x00030000, 0, 0x005, 0x3FA, 0x009, 0] := by decide
/-- V-CMD-7: RESET keeps the width. -/
theorem test_reset : views (exec (.reset 1) ready) =
    some [0x00030000, 0, 0x005, 0x009, 0x0B6, 0] := by decide
/-- V-CMD-4: ABSORB of the first byte. -/
theorem test_absorb : views (exec (.absorb 0 0x68) ready) =
    some [0x00030000, 0, 0x016, 0x3FA, 0x0B6, 0] := by decide

set_option maxRecDepth 100000 in
/-- V-ENG-5, 64 × 'a' wide: the 64th byte consumes the block. -/
theorem test_absorb_block :
    ((nextOf (exec (.absorb 1 0x61) ready)).bind fun s => s.ctxs[1]?) = some
      { cst := .accum
        wid := .wide
        h := 0xa1f8d1003a3c81ba7667fca154ac519f504999b115b328285c358e081445d20a1a4db3cd610f2ccdbd4c446051904e8161e4ad828d4b4dd2dd1e80d51c79b5d7#512
        N := 0x200#512
        sigma := 0x61616161616161616161616161616161616161616161616161616161616161616161616161616161616161616161616161616161616161616161616161616161#512
        buf := [] } := by decide +kernel

set_option maxRecDepth 100000 in
/-- V-KAT-1, the known answer of the source, with the tags and the end state of program P1. -/
theorem test_final :
    ((nextOf (exec (.final 2 32) ready)).map fun s =>
      (s.digest, s.readWord 0x004, s.readWord 0x018, s.readWord 0x100)) = some
      (0xc600fd9dd049cf8abd2f5b32e840d2cb0e41ea44de1c155dcd88dc84fe58a8550000000000000000000000000000000000000000000000000000000000000000#512,
        0x00032300, 0x005, 0x9DFD00C6) := by decide +kernel

/-- Program P3: FINAL with the wrong size changes nothing but ERR and ERRINFO. -/
theorem test_final_size : views (exec (.final 2 64) ready) =
    some [0x00030006, 0x42000040, 0x005, 0x3FA, 0x0B6, 0] := by decide
/-- V-CMD-10: CLONE over an UNINIT context. -/
theorem test_clone : views (exec (.clone 3 2) ready) =
    some [0x00030000, 0, 0x005, 0x3FA, 0x0B6, 0x0B6] := by decide
/-- V-CMD-29. -/
theorem test_errack : views (exec .errack failed) =
    some [0x00030000, 0, 0x005, 0x3FA, 0x0B6, 0] := by decide
/-- V-CMD-11, 13 to 18, 21, 22. -/
theorem test_errors : ([0x70000000, 0x01000000, 0x14000001, 0x10000000, 0x10000003, 0x31000041,
      0x50100000, 0x20000000].map fun w => (views (executeCommand w State.reset)).map (·.take 2)) =
    [some [0x00030001, 0x70000000], some [0x00030002, 0x01000000], some [0x00030003, 0x14000001],
     some [0x00030004, 0x10000000], some [0x00030004, 0x10000003], some [0x00030005, 0x31000041],
     some [0x00030005, 0x50100000], some [0x00030005, 0x20000000]] := by decide
/-- V-CMD-15 and 24 to 26: the priority of the checks. -/
theorem test_priority : ([0x50500000, 0x3F000100, 0x39000000, 0x43000000].map fun w =>
      (views (executeCommand w ready)).map (·.take 2)) =
    [some [0x00030003, 0x50500000], some [0x00030002, 0x3F000100], some [0x00030003, 0x39000000],
     some [0x00030005, 0x43000000]] := by decide
/-- V-CMD-27, V-CMD-28: while an error is latched only the exact ERRACK acts. -/
theorem test_dropped : ([0x10000000, 0x60000001, 0x30000062].map fun w =>
      nextOf (executeCommand w failed)) = [some failed, some failed, some failed] := by decide +kernel
/-- V-CMD-31, V-CMD-32 and R54: writes that are no commands. -/
theorem test_bus_errors : ([(0x004, 0b1111#4), (0x002, 0b1111#4), (0x000, 0b0111#4)].map fun p =>
      (views (writeWord p.1 p.2 0x12345678 State.reset)).map (·.take 2)) =
    [some [0x00030007, 0x004], some [0x00030007, 0x002], some [0x00030007, 0x000]] := by decide
/-- V-CMD-34: NCTX = 1. -/
theorem test_one_context : ((nextOf (executeCommand 0x11000001 (State.resetWith 1 7))).map fun s =>
      (s.readWord 0x004, s.readWord 0x008)) = some (0x00000003, 0x11000001) := by decide

/-! ### Steps -/

/-- One word per row of the opcode table, run as the first instruction after reset. -/
theorem test_first_instruction : ([0x00000000, 0x10000001, 0x20000000, 0x30000041, 0x40000020,
      0x50000000, 0x60000000].map fun w =>
      (views (step (State.reset.withFetchWord 32 w))).map (·.take 3)) =
    [some [0x00030000, 0, 0], some [0x00030000, 0, 0x005], some [0x00030005, 0x20000000, 0],
     some [0x00030005, 0x30000041, 0], some [0x00030005, 0x40000020, 0],
     some [0x00030005, 0x50000000, 0], some [0x00030000, 0, 0]] := by decide
/-- R52, R55: a read answers and changes nothing else. -/
theorem test_read : nextOf (step (facing (.read 0x018 0b1111))) =
    some { ready with replies := [0x0B6] } := by decide +kernel
/-- R57: DIGEST_W[15] holds the bytes 60 to 63. -/
theorem test_digest_word : delivered.readWord 0x13C = 0x3F3E3D3C := by decide +kernel
/-- R51, U8. -/
theorem test_outside : nextOf (step (facing (.read 0x200 0b1111))) = none := by decide
/-- R230. -/
theorem test_hardware_reset : nextOf (step (facing .hwReset delivered)) = some State.reset := by
  decide +kernel

/-! ### Primitives, against sections 2.1, 2.2 and 2.5 of spec/95 -/

/-- seq[i] = i. -/
def seqBytes : Bytes64 := ofBytes fun i => BitVec.ofNat 8 i

/-- V-PRIM-9. -/
theorem test_substitute : substitute seqBytes =
    0xfceedd11cf6e3116fbc4fada23c5044de977f0db932e99ba1736f1bb14cd5fc1f918655ae25cef21811c3c428b018e4f058402aee36a8fa0060bed987fd4d31f#512 := by
  decide +kernel
/-- V-PRIM-13. -/
theorem test_permute : permute seqBytes =
    0x00081018202830380109111921293139020a121a222a323a030b131b232b333b040c141c242c343c050d151d252d353d060e161e262e363e070f171f272f373f#512 := by
  decide +kernel
/-- V-PRIM-22. -/
theorem test_linearDiffuse : linearDiffuse seqBytes =
    0x93953387e7118d52d3463b2bdf4d4443132e23c297a9027053fd2b6eaff5cb618efe130d077c8e16ce2d1ba13f2047070e45034877c401344e960be44f98c825#512 := by
  decide +kernel
/-- V-PRIM-25. -/
theorem test_lps : lps seqBytes =
    0x779271f561cd4cdf3a7222a7566373616e62ac376c30fc825cf74a93ae2ea9b5f867468c999fa006dc1d0fbf25c944fccf1916b528bd95cabba37579bf2e09a0#512 := by
  decide +kernel
/-- V-KS-1. -/
theorem test_nextKey : nextKey 0 0 =
    0x72f27059183db001139c1270f36a77e90d492dcec5de138b38990e1fb76acd2df4c41dab015767c60d94a03cac8adaad9ba321149627aab261ee3086cf81d2e5#512 := by
  decide +kernel
/-- V-ENG-3: rev(h2). -/
theorem test_rev : rev 0x55a858fe84dc88cd5d151cde44ea410ecbd240e8325b2fbd8acf49d09dfd00c6e47df0c11d65c9bf00173682d12116c77635a276a50ba096b38ba84817fe1ec3#512 =
    0xc31efe1748a88bb396a00ba576a23576c71621d182361700bfc9651dc1f07de4c600fd9dd049cf8abd2f5b32e840d2cb0e41ea44de1c155dcd88dc84fe58a855#512 := by
  decide +kernel
/-- V-ENG-3: the padded and reversed final block. -/
theorem test_padBlock : rev (padBlock helloWorld) = 0x01646c726f77206f6c6c6568#512 := by
  decide +kernel

/-! ### The assembler (R92, R93) -/

/-- Program P1, part of it, as text. -/
theorem test_assemble : assembleText ["INIT 0, 256".toList, "ABSORBS 0, \"he\" ; text".toList,
      "ABSORBS 0, 0x6C6f".toList, "".toList, "FINAL 0, 32".toList] =
    some [0x10000001, 0x30000068, 0x30000065, 0x3000006C, 0x3000006F, 0x40000020] := by decide
/-- The same by HASH, and a raw word. -/
theorem test_assemble_hash : assembleText ["HASH 0, 256, \"he\"".toList, ".word 0x70000000".toList] =
    some [0x10000001, 0x30000068, 0x30000065, 0x40000020, 0x70000000] := by decide
/-- Values that do not fit, and a width that is none. -/
theorem test_assemble_refuses : ["RESET 16".toList, "ABSORB 0, 256".toList, "FINAL 0, 128".toList,
      "INIT 0, 300".toList].map (fun l => assembleText [l]) = [none, none, none, none] := by decide

/-! ### Inputs that meet the hypotheses of the statements

`test_hyps_X` is about `Obligations.X`. -/

theorem holding_inv {w : Width} {buf : List Byte} (h : buf.length ≤ 63) : (holding w buf).Inv := by
  refine ⟨h, fun hu => ?_, fun he => ?_, fun _ => ?_⟩
  · unfold holding at hu; simp only at hu; split at hu <;> cases hu
  · unfold holding at he ⊢
    simp only at he ⊢
    split at he
    · rename_i hb; subst hb; rfl
    · cases he
  · have hN : (holding w buf).N = zero64 := rfl
    rw [hN, show zero64 = 0#512 from rfl, BitVec.toNat_zero]

theorem uninit_inv : Context.uninit.Inv :=
  ⟨by decide, fun _ => rfl, (nomatch ·), (nomatch ·)⟩

/-- The invariant holds at a state with contexts of every kind, and after a delivery. -/
theorem test_hyps_StepKeepsInvariant : ready.Inv ∧ delivered.Inv ∧ failed.Inv := by
  have hc : ∀ x ∈ ready.ctxs, x.Inv := by
    intro x hx
    simp only [ready, List.mem_cons, List.not_mem_nil, or_false] at hx
    rcases hx with rfl | rfl | rfl | rfl
    · exact holding_inv (by decide)
    · exact holding_inv (by decide)
    · exact holding_inv (by decide)
    · exact uninit_inv
  exact ⟨⟨by decide, by decide, hc, fun _ => rfl, rfl, fun _ => ⟨rfl, rfl⟩, by decide, (nomatch ·)⟩,
    ⟨by decide, by decide, hc, fun _ => rfl, rfl, (nomatch ·), by decide, (nomatch ·)⟩,
    ⟨by decide, by decide, hc, (nomatch ·), rfl, fun _ => ⟨rfl, rfl⟩, by decide, (nomatch ·)⟩⟩

/-! #### Reset and encoding -/

theorem test_hyps_HardwareResetRestoresTheResetValues :
    (facing .hwReset delivered).pending = .hwReset :: [] := rfl

theorem test_hyps_AfterResetOnlyNctxReadsNonzero :
    (1 ≤ 1 ∧ 1 ≤ 16 ∧ 0x000 < 0x200) ∧ (1 ≤ 16 ∧ 16 ≤ 16 ∧ 0x1FF < 0x200) := by decide

theorem test_hyps_DecodedWordIsTheEncoding : decode 0x3F0000FF = .ok (.absorb 15 0xFF) := by decide

/-- The lowest or the highest reserved bit of each opcode. -/
theorem test_hyps_ReservedBitsRaiseERsvd : ready.err = .none ∧
    (opField 0x08000000 = 0x0 ∧ (0x08000000 : Word) &&& 0x0FFFFFFF ≠ 0) ∧
    (opField 0x10000004 = 0x1 ∧ (0x10000004 : Word) &&& 0x00FFFFFC ≠ 0) ∧
    (opField 0x20800000 = 0x2 ∧ (0x20800000 : Word) &&& 0x00FFFFFF ≠ 0) ∧
    (opField 0x30000100 = 0x3 ∧ (0x30000100 : Word) &&& 0x00FFFF00 ≠ 0) ∧
    (opField 0x40000080 = 0x4 ∧ (0x40000080 : Word) &&& 0x00FFFF80 ≠ 0) ∧
    (opField 0x50080000 = 0x5 ∧ (0x50080000 : Word) &&& 0x000FFFFF ≠ 0) ∧
    (opField 0x60000001 = 0x6 ∧ (0x60000001 : Word) &&& 0x0FFFFFFF ≠ 0) := by decide

theorem test_hyps_EveryWordIsACommandOrRaises : ready.err = .none ∧
    0x7 ≤ (opField 0x7FFFFFFF).toNat ∧ (opField 0x6FFFFFFF).toNat < 0x7 := by decide

/-! #### Steps and frames -/

theorem test_hyps_StepRunsTheDecodedCommand :
    (facing (.write 0 0b1111 0x50100000)).pending =
      .write (facing (.write 0 0b1111 0x50100000)).base 0b1111#4 0x50100000 :: [] ∧
    decode 0x50100000 = .ok (.clone 0 1) ∧
    decode (BitVec.ofNat 32 0x50100000) = .ok (.clone 0 1) := by decide

theorem test_hyps_IssuedCommandsRunInOrder : ready.pending = [] := rfl

/-- A FINAL that goes on, in `ready`. -/
theorem final_ready : ∃ t, exec (.final 2 32) ready = .next t := by
  have hx : ready.ctxs[(2 : CtxIx).toNat]? = some (holding .narrow helloWorld) := rfl
  have hb := finalBody_ok_iff.mpr ⟨_, hx, by decide, (by decide : (32#7).toNat = _), rfl⟩
  exact ⟨_, command_of_ok (w := encode (.final 2 32)) rfl hb⟩

/-- CTXSTAT[3], DIGEST_W[0] for a command that is no FINAL, and the offsets around DIGEST_W. -/
theorem test_hyps_CommandsLeaveTheRestUnchanged :
    (∃ t, exec (.final 2 32) ready = .next t) ∧ (∃ t, exec .errack failed = .next t ∧
      ¬ sameError failed t) ∧ isFinal (.reset 1) = false :=
  ⟨final_ready, ⟨_, rfl, by unfold sameError; decide⟩, rfl⟩

theorem test_hyps_CommandsLeaveOtherOffsetsUnchanged :
    (∃ t, exec (.final 2 32) ready = .next t) ∧
    (∀ off, off = 0x01C ∨ off = 0x0FF ∨ off = 0x140 →
      off ≠ 0x004 ∧ off ≠ 0x008 ∧ (∀ c, targetOf (.final 2 32) = some c → off ≠ 0x010 + 4 * c.toNat) ∧
      (isFinal (.final 2 32) = true → off < 0x100 ∨ 0x140 ≤ off)) := by
  refine ⟨final_ready, fun off h => ⟨by omega, by omega, ?_, fun _ => by omega⟩⟩
  intro c hc
  cases hc
  have : (2 : CtxIx).toNat = 2 := by decide
  omega

theorem test_hyps_OnlyFinalWritesTheDigest : ∃ t, step (facing .hwReset delivered) = .next t ∧
    ¬ sameDigest (facing .hwReset delivered) t :=
  ⟨_, rfl, fun h => absurd h.1 (by decide)⟩

/-- UNINIT to EMPTY and EMPTY to ACCUM. -/
theorem test_hyps_LifeCycleTransitions :
    (∃ t x y, exec (.init 3 1) ready = .next t ∧ ready.ctxs[3]? = some x ∧ t.ctxs[3]? = some y ∧
      y.cst ≠ x.cst) ∧
    (∃ t x y, exec (.absorb 0 0xFF) ready = .next t ∧ ready.ctxs[0]? = some x ∧
      t.ctxs[0]? = some y ∧ y.cst ≠ x.cst) :=
  ⟨⟨_, _, _, rfl, rfl, rfl, by decide⟩, ⟨_, _, _, rfl, rfl, rfl, by decide⟩⟩

theorem test_hyps_OnlyInitAndCloneChangeTheWidth :
    (∃ t x y, exec (.init 2 2) ready = .next t ∧ ready.ctxs[2]? = some x ∧ t.ctxs[2]? = some y ∧
      y.wid ≠ x.wid) ∧
    (∃ t x y, exec (.clone 2 1) ready = .next t ∧ ready.ctxs[2]? = some x ∧ t.ctxs[2]? = some y ∧
      y.wid ≠ x.wid) :=
  ⟨⟨_, _, _, rfl, rfl, rfl, by decide⟩, ⟨_, _, _, rfl, rfl, rfl, by decide⟩⟩

/-- With 63 pending bytes and with none. -/
theorem test_hyps_ChainCounterAndChecksumMoveTogether :
    (∃ t x y, exec (.absorb 1 0x61) ready = .next t ∧ ready.ctxs[1]? = some x ∧
      t.ctxs[1]? = some y ∧ x.buf.length = 63) ∧
    (∃ t x y, exec (.absorb 0 0x61) ready = .next t ∧ ready.ctxs[0]? = some x ∧
      t.ctxs[0]? = some y ∧ x.buf.length = 0) :=
  ⟨⟨_, _, _, rfl, rfl, rfl, by decide⟩, ⟨_, _, _, rfl, rfl, rfl, by decide⟩⟩

/-! #### Results -/

theorem test_hyps_NopChangesNothing : ready.err = .none ∧
    opField 0x00000001 = 0x0 ∧ (0x00000001 : Word).extractLsb' 0 28 ≠ 0 := by decide

/-- The last context that exists and the first that does not, both widths, both illegal codes. -/
theorem test_hyps_InitConfiguresTheContext : ready.err = .none ∧ (3 : CtxIx).toNat < ready.nctx ∧
    ready.nctx ≤ (4 : CtxIx).toNat ∧
    (∃ wid w, (wid = 0b01#2 ∧ w = Width.narrow) ∨ (wid = 0b10#2 ∧ w = Width.wide)) ∧
    (∃ wid, wid = 0b00#2 ∨ wid = 0b11#2) ∧
    opField 0x10800000 = 0x1 ∧ (0x10800000 : Word).extractLsb' 2 22 ≠ 0 :=
  ⟨rfl, by decide, by decide, ⟨_, _, .inl ⟨rfl, rfl⟩⟩, ⟨_, .inl rfl⟩, by decide, by decide⟩

theorem test_hyps_ResetEmptiesTheContext : ready.err = .none ∧
    (ready.ctxs[(2 : CtxIx).toNat]? = some (holding .narrow helloWorld) ∧
      (holding .narrow helloWorld).cst ≠ .uninit) ∧
    (ready.ctxs[(0 : CtxIx).toNat]? = some (holding .narrow []) ∧ (holding .narrow []).Inv ∧
      (holding .narrow []).cst = .empty) ∧
    ready.nctx ≤ (4 : CtxIx).toNat ∧
    (ready.ctxs[(3 : CtxIx).toNat]? = some Context.uninit ∧ Context.uninit.cst = .uninit) ∧
    opField 0x20000001 = 0x2 ∧ (0x20000001 : Word).extractLsb' 0 24 ≠ 0 :=
  ⟨rfl, ⟨rfl, by decide⟩, ⟨rfl, holding_inv (by decide), rfl⟩, by decide, ⟨rfl, rfl⟩, by decide,
    by decide⟩

/-- 0, and 62 and 63 pending bytes. -/
theorem test_hyps_AbsorbAppendsOrConsumes : ready.err = .none ∧
    (ready.ctxs[(0 : CtxIx).toNat]? = some (holding .narrow []) ∧
      (holding .narrow []).cst ≠ .uninit ∧ (holding .narrow []).buf.length < 63) ∧
    ((holding .wide (List.replicate 62 0x61)).cst ≠ .uninit ∧
      (holding .wide (List.replicate 62 0x61)).buf.length < 63) ∧
    (ready.ctxs[(1 : CtxIx).toNat]? = some (holding .wide (List.replicate 63 0x61)) ∧
      (holding .wide (List.replicate 63 0x61)).cst ≠ .uninit ∧
      (holding .wide (List.replicate 63 0x61)).buf.length = 63) ∧
    ready.nctx ≤ (4 : CtxIx).toNat ∧
    (ready.ctxs[(3 : CtxIx).toNat]? = some Context.uninit ∧ Context.uninit.cst = .uninit) ∧
    opField 0x30000100 = 0x3 ∧ (0x30000100 : Word).extractLsb' 8 16 ≠ 0 :=
  ⟨rfl, ⟨rfl, by decide, by decide⟩, ⟨by decide, by decide⟩, ⟨rfl, by decide, by decide⟩, by decide,
    ⟨rfl, rfl⟩, by decide, by decide⟩

/-- Both widths with their sizes, and a wrong size; r and h2 are whatever the equations say. -/
theorem test_hyps_FinalDeliversTheDigest : ready.err = .none ∧
    (ready.ctxs[(0 : CtxIx).toNat]? = some (holding .narrow []) ∧
      (holding .narrow []).cst ≠ .uninit ∧
      (32#7).toNat = (if (holding .narrow []).wid = .narrow then 32 else 64)) ∧
    (ready.ctxs[(1 : CtxIx).toNat]? = some (holding .wide (List.replicate 63 0x61)) ∧
      (64#7).toNat = (if (holding .wide (List.replicate 63 0x61)).wid = .narrow then 32 else 64) ∧
      (32#7).toNat ≠ (if (holding .wide (List.replicate 63 0x61)).wid = .narrow then 32 else 64)) ∧
    (∀ x : Context, ∃ r h2 : Bytes64,
      r = rev (ofList (x.buf ++ [0x01] ++ List.replicate (63 - x.buf.length) 0x00)) ∧
      h2 = compress 0 (compress 0 (compress x.N x.h r) (add512 x.N (be64 (8 * x.buf.length))))
        (add512 x.sigma r)) ∧
    ready.nctx ≤ (4 : CtxIx).toNat ∧
    (ready.ctxs[(3 : CtxIx).toNat]? = some Context.uninit ∧ Context.uninit.cst = .uninit) ∧
    opField 0x40000080 = 0x4 ∧ (0x40000080 : Word).extractLsb' 7 17 ≠ 0 :=
  ⟨rfl, ⟨rfl, by decide, by decide⟩, ⟨rfl, by decide, by decide⟩, fun _ => ⟨_, _, rfl, rfl⟩,
    by decide, ⟨rfl, rfl⟩, by decide, by decide⟩

theorem test_hyps_CloneCopiesTheContext : ready.err = .none ∧ (3 : CtxIx).toNat < ready.nctx ∧
    (ready.ctxs[(0 : CtxIx).toNat]? = some (holding .narrow []) ∧
      (holding .narrow []).cst ≠ .uninit) ∧
    ready.nctx ≤ (4 : CtxIx).toNat ∧
    (ready.ctxs[(3 : CtxIx).toNat]? = some Context.uninit ∧ Context.uninit.cst = .uninit) ∧
    opField 0x50080000 = 0x5 ∧ (0x50080000 : Word).extractLsb' 0 20 ≠ 0 :=
  ⟨rfl, by decide, ⟨rfl, by decide⟩, by decide, ⟨rfl, rfl⟩, by decide, by decide⟩

theorem test_hyps_ErrackClearsTheError : failed.err ≠ .none ∧ ready.err = .none ∧
    opField 0x68000000 = 0x6 ∧ (0x68000000 : Word).extractLsb' 0 28 ≠ 0 := by decide

/-! #### Errors and the register window -/

/-- A command that is rejected, and a write at the last offset of the window; with an error latched, a
write at that offset, a partial write and a word that is no command. -/
theorem test_hyps_ErrorsArePrecise : ready.err = .none ∧ failed.err ≠ .none ∧ 0x1FF < 0x200 ∧
    ((nextOf (step (facing (.write (ready.base + 0x000) 0b1111 0x70000000)))).map (·.err) =
      some .opcode) ∧
    ((nextOf (step (facing (.write (ready.base + 0x1FF) 0b1111 0)))).map (·.err) = some .bus) ∧
    0x1FF ≠ 0 ∧ 0b0111#4 ≠ 0b1111#4 ∧ decode 0x70000000 = .error .illegalOpcode := by
  decide

theorem test_hyps_LatchedErrorDropsEverythingButErrack : failed.err ≠ .none ∧ 0x000 < 0x200 ∧
    (facing (.write (failed.base + 0) 0b1111 0x60000000) failed).pending =
      .write (failed.base + 0) 0b1111 0x60000000 :: [] ∧
    (facing (.read (failed.base + 0x1FC) 0b0001) failed).pending =
      .read (failed.base + 0x1FC) 0b0001 :: [] :=
  ⟨by decide, by decide, rfl, rfl⟩

theorem test_hyps_OnlyErrackLeavesTheErrorState : failed.err ≠ .none ∧
    (∃ t, step (facing (.write failed.base 0b1111 0x60000000) failed) = .next t ∧ t.err = .none) ∧
    (∃ t, step (facing .hwReset failed) = .next t ∧ t.err = .none) :=
  ⟨by decide, ⟨_, rfl, by decide⟩, ⟨_, rfl, by decide⟩⟩

/-- Without an error, and with one. -/
theorem test_hyps_StepKeepsErrInfoSpelling : errInfoSpells ready.err ready.errInfo ready.nctx ∧
    errInfoSpells failed.err failed.errInfo failed.nctx ∧
    (∃ t, step (facing .hwReset failed) = .next t) :=
  ⟨rfl, ⟨0, 64, by decide, by decide⟩, ⟨_, rfl⟩⟩

/-- The last offset of the window, read twice. -/
theorem test_hyps_ReadsHaveNoSideEffects : 0x1FF < 0x200 ∧
    ∃ s : State, s.pending = .read (s.base + 0x1FF) 0b0001 :: .read (s.base + 0x1FF) 0b1111 :: [] :=
  ⟨by decide, { ready with pending := [.read 0x1FF 0b0001, .read 0x1FF 0b1111] }, rfl⟩

/-- A command, a partial write of CMD and a write at the last offset. -/
theorem test_hyps_WritesOtherThanCommandsRaiseEBus :
    (facing (.write 0 0b1111 0)).pending = .write (ready.base + 0) 0b1111#4 0 :: [] ∧
    (facing (.write 0 0b1110 0)).pending = .write (ready.base + 0) 0b1110#4 0 :: [] ∧
    (facing (.write 0x1FF 0b1111 0)).pending =
      .write (ready.base + 0x1FF) 0b1111#4 0 :: [] ∧
    0b1110#4 ≠ 0b1111#4 ∧ 0x1FF < 0x200 :=
  ⟨rfl, rfl, rfl, by decide, by decide⟩

/-- The last address of the window, and the next one. -/
theorem test_hyps_StepGoesOnInsideTheWindow :
    inWindow (facing (.read 0x1FF 0b1111)) (.read 0x1FF 0b1111) ∧
    ¬ inWindow (facing (.read 0x200 0b1111)) (.read 0x200 0b1111) := by
  unfold inWindow; decide

theorem test_hyps_StatusFields : ready.err = .none := rfl

theorem test_hyps_ErrInfoReads : ready.Inv ∧ ready.err = .none :=
  ⟨test_hyps_StepKeepsInvariant.1, rfl⟩

/-- An initialised context with 63 bytes, an UNINIT one, the first that does not exist and the last
index. -/
theorem test_hyps_CtxstatFields :
    (1 < 16 ∧ ready.ctxs[1]? = some (holding .wide (List.replicate 63 0x61)) ∧
      (holding .wide (List.replicate 63 0x61)).Inv) ∧
    (3 < 16 ∧ ready.ctxs[3]? = some Context.uninit ∧ Context.uninit.Inv) ∧
    (4 < 16 ∧ ready.nctx ≤ 4) ∧ (15 < 16 ∧ ready.nctx ≤ 15) :=
  ⟨⟨by decide, rfl, holding_inv (by decide)⟩, ⟨by decide, rfl, uninit_inv⟩, by decide, by decide⟩

/-- The indices of bytes, words, rows and rounds that the statements of this part range over, at both
ends: BigEndianInterpretation, ReversalIsItsOwnInverse, XorCombineIsByteWise, SubstituteIsABijection,
PermuteIsAnInvolution, LinearDiffuseXorsTheRowsOfSetBits. -/
theorem test_hyps_indices : (0 < 64 ∧ 63 < 64) ∧ (0 < 8 ∧ 7 < 8) ∧ (0 < 12 ∧ 11 < 12) := by
  decide

theorem test_hyps_DigestWordsAreLittleEndian : (0 < 16 ∧ 0 < 4) ∧ (15 < 16 ∧ 3 < 4) := by decide

/-! #### Blocks, streams and contexts -/

/-- A word with one set bit: the highest of the first, the lowest of the last. -/
theorem test_hyps_LinearDiffuseXorsTheRowsOfSetBits :
    word64 (BitVec.twoPow 512 511) 0 = BitVec.twoPow 64 (63 - 0) ∧
    word64 (BitVec.twoPow 512 0) 7 = BitVec.twoPow 64 (63 - 63) := by decide +kernel

/-- The values of the loop, from its own definition. -/
theorem test_hyps_EncryptionRunsTwelveRounds : ∃ st key : Nat → Bytes64,
    st 0 = xorCombine 0 0 ∧ key 0 = 0 ∧
    (∀ i, i < 12 → key (i + 1) = lps (xorCombine (key i) (roundConstant i))) ∧
    (∀ i, i < 12 → st (i + 1) = xorCombine (lps (st i)) (key (i + 1))) :=
  ⟨fun n => Nat.rec (xorCombine 0 0) (fun i x => xorCombine (lps x) (roundKey 0 (i + 1))) n,
    roundKey 0, rfl, rfl, fun _ _ => rfl, fun _ _ => rfl⟩

/-- 63 pending bytes and none. -/
theorem test_hyps_FinalBlockIsPadded :
    (holding .wide (List.replicate 63 0x61)).buf.length ≤ 63 ∧ (holding .narrow []).buf = [] := by
  decide

theorem test_hyps_DigestBytesOfTheFinalChainingValue :
    ∃ (x y : Context) (h2 : Bytes64), h2 = compress 0 (compress 0 x.h x.N) x.sigma ∧
      h2 = compress 0 (compress 0 y.h y.N) y.sigma ∧ x.wid = .wide ∧ y.wid = .narrow :=
  ⟨{ holding .wide [] with h := 0 }, { holding .narrow [] with h := 0 }, _, rfl, rfl, rfl, rfl⟩

theorem test_hyps_DeliveryZeroesBeyondANarrowDigest : (holding .narrow []).wid = .narrow := rfl

/-- A context that has absorbed 11 bytes, and one that has absorbed none. -/
theorem test_hyps_AbsorbedStreamIsIndependentOfItsChunks : ready.err = .none ∧
    ready.ctxs[(2 : CtxIx).toNat]? = some (streamContext .narrow helloWorld) ∧
    ready.ctxs[(0 : CtxIx).toNat]? = some (streamContext .narrow []) := by decide +kernel

/-- The last context, and both widths. -/
theorem test_hyps_HashCommandsGiveTheOneShotDigest : ready.err = .none ∧
    (3 : CtxIx).toNat < ready.nctx ∧
    (∃ wid olen w, (wid = 0b01#2 ∧ olen = 32#7 ∧ w = Width.narrow) ∨
      (wid = 0b10#2 ∧ olen = 64#7 ∧ w = Width.wide)) :=
  ⟨rfl, by decide, ⟨_, _, _, .inr ⟨rfl, rfl, rfl⟩⟩⟩

theorem test_hyps_ClonesAreIndependent : ready.err = .none ∧ (3 : CtxIx) ≠ 2 ∧
    (3 : CtxIx).toNat < ready.nctx ∧
    ready.ctxs[(2 : CtxIx).toNat]? = some (streamContext .narrow helloWorld) ∧
    (32#7).toNat = Width.narrow.digestBytes := by decide +kernel

theorem test_hyps_FinalImpliesReset : ready.err = .none ∧
    ready.ctxs[(1 : CtxIx).toNat]? = some (holding .wide (List.replicate 63 0x61)) ∧
    (holding .wide (List.replicate 63 0x61)).cst ≠ .uninit ∧
    (64#7).toNat = (holding .wide (List.replicate 63 0x61)).wid.digestBytes := by decide +kernel

/-- Two states that agree on the two contexts of a CLONE. -/
theorem test_hyps_ContextResultsDependOnlyOnTheirContexts :
    targetOf (.clone 3 2) = some 3 ∧
    (∀ k, k ∈ contextsOf (.clone 3 2) →
      ready.ctxs[k.toNat]? = ({ ready with ctxs := ready.ctxs.set 0 Context.uninit } : State).ctxs[k.toNat]?) ∧
    ready.err = .none ∧ (∃ t, exec (.clone 3 2) ready = .next t) ∧
    (∃ t, exec (.clone 3 2) { ready with ctxs := ready.ctxs.set 0 Context.uninit } = .next t) ∧
    targetOf (.final 2 32) = some 2 ∧ (∃ t, exec (.final 2 32) ready = .next t) := by
  refine ⟨rfl, fun k hk => ?_, rfl, ⟨_, rfl⟩, ⟨_, rfl⟩, rfl, final_ready⟩
  simp only [contextsOf, List.mem_cons, List.not_mem_nil, or_false] at hk
  rcases hk with rfl | rfl <;> rfl

theorem test_hyps_CommandsOnDifferentContextsCommute : accepts ready (.final 2 32) ∧
    accepts ready (.clone 3 1) ∧ (∀ c, c ∈ contextsOf (.final 2 32) → c ∉ contextsOf (.clone 3 1)) ∧
    ¬ (isFinal (.final 2 32) = true ∧ isFinal (.clone 3 1) = true) := by
  refine ⟨⟨rfl, by decide⟩, ⟨rfl, by decide⟩, ?_, by decide⟩
  intro c hc
  simp only [contextsOf, List.mem_cons, List.not_mem_nil, or_false] at hc ⊢
  subst hc
  decide

/-- Two states whose UNINIT context holds different values. -/
theorem test_hyps_UninitContentsAreNotObservable :
    ∃ s t : State, s.indist t ∧ s ≠ t ∧ (∃ s', step s = .next s') := by
  refine ⟨ready, { ready with ctxs := ready.ctxs.set 3 { Context.uninit with h := 1 } },
    ⟨rfl, by simp [State.nctx], ?_⟩, by decide +kernel, ⟨_, rfl⟩⟩
  intro i x y hx hy
  by_cases hi : i = 3
  · subst hi; cases hx; cases hy; exact .inl ⟨rfl, rfl⟩
  · have h : (ready.ctxs.set 3 { Context.uninit with h := 1 })[i]? = ready.ctxs[i]? :=
      List.getElem?_set_ne (Ne.symm hi)
    simp only [h, hx] at hy
    cases hy
    exact .inr rfl

theorem test_hyps_ResetMeetsInvariant : (1 ≤ 1 ∧ 1 ≤ 16) ∧ (1 ≤ 16 ∧ 16 ≤ 16) := by decide

theorem test_hyps_AssemblerWritesCommands :
    assemble (.hash 15 512 [0x00]) = some [0x1F000002, 0x3F000000, 0x4F000040] ∧
    (∀ v, AsmLine.hash 15 512 [0x00] ≠ .word v) ∧ (256 = 256 ∨ 256 = 512) :=
  ⟨by decide, fun _ => (nomatch ·), .inl rfl⟩

end Sys2Proof.Tests
end

section
/-! Proofs of the family 00_scope: what each update of the state keeps of its invariant, and the bytes of
a 64-byte value as digits of its number (spec/00_scope.md R7, R10, R11). -/

namespace Sys2Proof.Machine

/-! ### The invariant of one context -/

/-- What hardware reset leaves in a context (R38). -/
theorem Context.uninit_inv : Context.uninit.Inv :=
  ⟨by decide, fun _ => rfl, (nomatch ·), (nomatch ·)⟩

/-- resetCtx establishes the invariant whatever the context held before (R160). -/
theorem Context.fresh_inv (x : Context) : x.fresh.Inv :=
  ⟨by simp, by simp, by simp, by simp⟩

/-- The counter of every initialised context is a number of whole blocks: EMPTY contexts have counted
none (R160, R161). -/
theorem Context.Inv.counted_of_live {x : Context} (hx : x.Inv) (hu : x.cst ≠ .uninit) :
    x.N.toNat % 512 = 0 := by
  cases hc : x.cst with
  | uninit => exact absurd hc hu
  | empty => rw [hx.empty hc, fresh_N, show zero64 = 0#512 from rfl, BitVec.toNat_zero]
  | accum => exact hx.counted hc

/-- Adding 512 keeps a multiple of 512 one, when the sum wraps around at a power of two too. -/
theorem toNat_add_512_mod {k : Nat} (hk : 9 ≤ k) {n : BitVec k} (h : n.toNat % 512 = 0) :
    (n + BitVec.ofNat k 512).toNat % 512 = 0 := by
  have hdvd : 512 ∣ 2 ^ k := Nat.pow_dvd_pow 2 hk
  rw [BitVec.toNat_add, BitVec.toNat_ofNat, Nat.mod_mod_of_dvd _ hdvd, Nat.add_mod,
    Nat.mod_mod_of_dvd _ hdvd, h]

/-- ABSORB keeps the invariant: the buffer never holds 64 bytes between events (R169). -/
theorem Context.Inv.absorb {x : Context} (hx : x.Inv) (hu : x.cst ≠ .uninit) (b : Byte) :
    (x.absorb b).Inv := by
  refine ⟨?len, by simp, by simp, fun _ => ?counted⟩
  case len =>
    by_cases hl : x.buf.length = 63
    · simp [absorb_of_full hl]
    · have := hx.len
      rw [absorb_of_room hl, List.length_append, List.length_singleton]
      omega
  case counted =>
    have hN := hx.counted_of_live hu
    by_cases hl : x.buf.length = 63
    · rw [absorb_of_full hl, consume_N]; exact toNat_add_512_mod (by decide) hN
    · rw [absorb_of_room hl]; exact hN

/-! ### The invariant of the state, one update at a time -/

/-- What is not the engine's does not matter to the invariant. -/
theorem State.Inv.with_bus {s : State} (hs : s.Inv) (p : List BusEvent) (r : List Word) :
    ({ s with pending := p, replies := r } : State).Inv :=
  ⟨hs.some_ctx, hs.max_ctx, hs.ctxs, hs.errInfo, hs.tagged, hs.untouched, hs.owner, hs.narrow⟩

theorem State.Inv.answerRead {s : State} (hs : s.Inv) (off : Nat) : (answerRead off s).Inv :=
  hs.with_bus s.pending _

/-- A write of a context keeps the invariant when the value written has its own. -/
theorem State.Inv.putCtx {s : State} (hs : s.Inv) (c : CtxIx) {x : Context} (hx : x.Inv) :
    (s.putCtx c x).Inv where
  some_ctx := by simpa using hs.some_ctx
  max_ctx := by simpa using hs.max_ctx
  ctxs y hy := by
    rcases List.mem_or_eq_of_mem_set hy with hy | rfl
    · exact hs.ctxs y hy
    · exact hx
  errInfo := hs.errInfo
  tagged := hs.tagged
  untouched := hs.untouched
  owner := by simpa using hs.owner
  narrow := hs.narrow

/-- A delivery to an existing context keeps the invariant when a narrow digest has at most 32 bytes
(R164). -/
theorem State.Inv.deliver {s : State} (hs : s.Inv) {c : CtxIx} (hc : c.toNat < s.nctx) {w : Width}
    {o : List Byte} (ho : w = .narrow → o.length ≤ 32) : (s.deliver c w o).Inv where
  some_ctx := by simpa using hs.some_ctx
  max_ctx := by simpa using hs.max_ctx
  ctxs := by simpa using hs.ctxs
  errInfo := by simpa using hs.errInfo
  tagged := by simp
  untouched := by simp
  owner := by simpa using hc
  narrow hw i h32 h64 := by
    have hlen : o.length ≤ 32 := ho (by simpa using hw)
    have hout : o.getD i 0 = 0 := List.getD_eq_default _ _ (by omega)
    rw [deliver_digest, byte_ofList o i h64, hout]

/-- Latching an error code keeps the invariant, whatever ERRINFO records (R29, R31). -/
theorem State.Inv.with_error {s : State} (hs : s.Inv) {code : ErrCode} (hcode : code ≠ .none)
    (info : Word) : ({ s with err := code, errInfo := info } : State).Inv :=
  ⟨hs.some_ctx, hs.max_ctx, hs.ctxs, fun h => absurd h hcode, hs.tagged, hs.untouched, hs.owner,
    hs.narrow⟩

theorem State.Inv.raise {s : State} (hs : s.Inv) {code : ErrCode} (hcode : code ≠ .none)
    (info : Word) : (raise code info s).Inv := by
  by_cases h : s.err = .none
  · rw [raise_of_none s h]; exact hs.with_error hcode info
  · rwa [raise_of_error s h]

theorem State.Inv.acknowledge {s : State} (hs : s.Inv) : (acknowledge s).Inv := by
  by_cases h : s.err = .none
  · rwa [acknowledge_of_none s h]
  · rw [acknowledge_of_error s h]
    exact ⟨hs.some_ctx, hs.max_ctx, hs.ctxs, fun _ => rfl, hs.tagged, hs.untouched, hs.owner,
      hs.narrow⟩

/-- The reset state of a legal size (R7, R38). -/
theorem State.resetWith_inv {n : Nat} (h1 : 1 ≤ n) (h16 : n ≤ 16) (u : Nat) :
    (State.resetWith n u).Inv where
  some_ctx := by simpa [State.nctx, State.resetWith] using h1
  max_ctx := by simpa [State.nctx, State.resetWith] using h16
  ctxs x hx := by
    rw [List.eq_of_mem_replicate hx]
    exact Context.uninit_inv
  errInfo _ := rfl
  tagged := rfl
  untouched _ := ⟨rfl, rfl⟩
  owner := by simpa [State.nctx, State.resetWith] using show 0 < n from h1
  narrow := (nomatch ·)

theorem State.Inv.hardwareReset {s : State} (hs : s.Inv) : (hardwareReset s).Inv :=
  (State.resetWith_inv hs.some_ctx hs.max_ctx s.baseUnit).with_bus s.pending s.replies

/-! ### The invariant of the state under commands and steps -/

theorem Rejection.ne_none {n : Nat} {i : Instr} {e : ErrCode} (h : Rejection n i e) : e ≠ .none := by
  cases h <;> decide

theorem decodeErrorCode_ne_none (e : DecodeError) : decodeErrorCode e ≠ .none := by
  cases e <;> decide

/-- The closing step of a narrow context emits half of the bytes (R163). -/
theorem length_close_of_narrow {x : Context} (h : x.wid = .narrow) : x.close.length = 32 := by
  simp [Context.close, h]

/-- FINAL's digest fits its width. -/
theorem length_finish_of_narrow {x : Context} (h : x.wid = .narrow) : x.finish.length = 32 :=
  length_close_of_narrow (by rw [consumeFinal_wid, h])

/-- A context the state holds has the invariant. -/
theorem State.Inv.ctx_inv {s : State} (hs : s.Inv) {i : Nat} {x : Context}
    (h : s.ctxs[i]? = some x) : x.Inv :=
  hs.ctxs x (List.mem_of_getElem? h)

/-- Everything a command can do keeps the invariant. -/
theorem Did.keeps_inv {i : Instr} {s t : State} (h : Did i s t) (hs : s.Inv) : t.Inv := by
  cases h with
  | dropped => exact hs
  | rejected _ hr => exact hs.with_error hr.ne_none _
  | nop => exact hs
  | errack => exact hs.acknowledge
  | init => exact hs.putCtx _ (Context.fresh_inv _)
  | reset => exact hs.putCtx _ (Context.fresh_inv _)
  | absorb _ hx hu => exact hs.putCtx _ ((hs.ctx_inv hx).absorb hu _)
  | final _ hx =>
    refine (hs.deliver (lt_nctx_of_getElem? hx) fun hw => ?_).putCtx _ (Context.fresh_inv _)
    exact (length_finish_of_narrow hw).le
  | clone _ _ hx => exact hs.putCtx _ (hs.ctx_inv hx)

/-- Delivery of any word keeps the invariant. -/
theorem executeCommand_keeps_inv {w : Word} {s t : State} (h : executeCommand w s = .next t)
    (hs : s.Inv) : t.Inv := by
  rcases executeCommand_cases h with ⟨i, -, hi⟩ | ⟨e, -, he⟩
  · exact (did_of_exec hi).keeps_inv hs
  · cases he; exact hs.raise (decodeErrorCode_ne_none e) w

/-- Every event the engine takes keeps the invariant. -/
theorem takeEvent_keeps_inv {e : BusEvent} {s t : State} (h : takeEvent e s = .next t)
    (hs : s.Inv) : t.Inv := by
  rcases takeEvent_cases h with ⟨off, -, -, -, rfl⟩ | ⟨off, -, -, -, -, -, rfl⟩ | ⟨v, -, hv⟩ | ⟨-, rfl⟩
  · exact hs.answerRead off
  · exact hs.raise (by decide) _
  · exact executeCommand_keeps_inv hv hs
  · exact hs.hardwareReset

/-- Settles O58: a step is idle or takes one event, and every event keeps the invariant. -/
theorem stepKeepsInvariant : Obligations.StepKeepsInvariant := by
  intro s t hs h
  rcases step_cases h with ⟨-, rfl⟩ | ⟨e, rest, -, he⟩
  · exact hs
  · exact takeEvent_keeps_inv he (hs.with_bus rest s.replies)

/-! ### Bytes as digits of a number -/

/-- A number modulo 2^(8n) is the sum of its `n` low bytes, the most significant first. -/
theorem sum_bytes_eq_mod (v n : Nat) :
    ((List.range n).map fun i => v / 2 ^ (8 * (n - 1 - i)) % 2 ^ 8 * 2 ^ (8 * (n - 1 - i))).sum =
      v % 2 ^ (8 * n) := by
  induction n with
  | zero => simp [Nat.mod_one]
  | succ n ih =>
    have hsub : ∀ i, n + 1 - 1 - (i + 1) = n - 1 - i := by omega
    rw [List.range_succ_eq_map, List.map_cons, List.sum_cons, List.map_map]
    simp only [Function.comp_def, Nat.succ_eq_add_one, hsub]
    rw [ih, Nat.mul_succ, pow_add, Nat.mod_mul, Nat.add_sub_cancel, Nat.sub_zero]
    ring

/-- The number of a value of `n` bytes is the sum of its bytes, the most significant first. -/
theorem toNat_eq_sum_extractLsb' {k n : Nat} (hk : k = 8 * n) (b : BitVec k) :
    b.toNat = ((List.range n).map fun i =>
      (b.extractLsb' (8 * (n - 1 - i)) 8).toNat * 2 ^ (8 * (n - 1 - i))).sum := by
  subst hk
  simp only [BitVec.extractLsb'_toNat, Nat.shiftRight_eq_div_pow]
  rw [sum_bytes_eq_mod, Nat.mod_eq_of_lt b.isLt]

/-- Byte `j` of word `w` is byte `8w + j` of the value (R10). -/
theorem byte_eq_extractLsb'_word64 (b : Bytes64) {w j : Nat} (hw : w < 8) (hj : j < 8) :
    byte b (8 * w + j) = (word64 b w).extractLsb' (8 * (7 - j)) 8 := by
  apply BitVec.eq_of_getLsbD_eq
  intro k hk
  have hin : 8 * (7 - j) + k < 64 := by omega
  have hpos : 8 * (63 - (8 * w + j)) + k = 64 * (7 - w) + (8 * (7 - j) + k) := by omega
  simp only [byte, word64, BitVec.getLsbD_extractLsb', hk, hin, hpos, decide_true, Bool.true_and]

/-- int512 (R10). -/
theorem toNat_eq_sum_bytes (b : Bytes64) :
    b.toNat = ((List.range 64).map fun i => (byte b i).toNat * 2 ^ (8 * (63 - i))).sum :=
  toNat_eq_sum_extractLsb' (n := 64) rfl b

/-- word64 (R10). -/
theorem toNat_word64_eq_sum_bytes (b : Bytes64) {w : Nat} (hw : w < 8) :
    (word64 b w).toNat =
      ((List.range 8).map fun j => (byte b (8 * w + j)).toNat * 2 ^ (8 * (7 - j))).sum := by
  rw [toNat_eq_sum_extractLsb' (n := 8) rfl (word64 b w)]
  refine congrArg List.sum (List.map_congr_left fun j hj => ?_)
  rw [byte_eq_extractLsb'_word64 b hw (List.mem_range.mp hj)]

theorem toNat_ofNat_of_lt {k v : Nat} (h : v < 2 ^ k) : (BitVec.ofNat k v).toNat = v := by
  rw [BitVec.toNat_ofNat, Nat.mod_eq_of_lt h]

theorem ofNat_mod_two_pow (k n : Nat) : BitVec.ofNat k (n % 2 ^ k) = BitVec.ofNat k n :=
  BitVec.eq_of_toNat_eq (by rw [BitVec.toNat_ofNat, BitVec.toNat_ofNat, Nat.mod_mod])

/-- Settles O38: bytes are digits in base 256, and the bytes of a word are bytes of the value. -/
theorem bigEndianInterpretation : Obligations.BigEndianInterpretation := by
  refine ⟨toNat_eq_sum_bytes, fun v n hv => ⟨toNat_ofNat_of_lt hv, ofNat_mod_two_pow 512 n⟩,
    fun b w => toNat_word64_eq_sum_bytes b, fun f w j hw hj => ?_⟩
  rw [byte_eq_extractLsb'_word64 _ hw hj, word64_ofWords f w hw]

/-- R11's second half, byte by byte: 63 - (63 - i) is i. -/
theorem rev_rev (b : Bytes64) : rev (rev b) = b := by
  apply eq_of_byte_eq
  intro i hi
  have hinv : 63 - (63 - i) = i := by omega
  rw [byte_rev _ i hi, byte_rev _ (63 - i) (by omega), hinv]

/-- Settles O39. -/
theorem reversalIsItsOwnInverse : Obligations.ReversalIsItsOwnInverse :=
  fun b => ⟨byte_rev b, rev_rev b⟩

end Sys2Proof.Machine
end

section
/-! Proofs of the family 10_state: what a command can change and what its result depends on, what
each register of the window reads, and the stream a context holds (spec/10_state.md R20 to R38). -/

namespace Sys2Proof.Machine

/-! ### Two states under one command

A command sees the contexts it names through its operand forms only, so two states that agree there
take the same of its paths. -/

/-- What relates the next states of `i` in `s` and in `t`, path by path of `exec`. -/
structure RelatedOn (i : Instr) (R : State → State → Prop) (s t : State) : Prop where
  /-- The same error is latched. -/
  err : s.err = t.err
  /-- The named contexts are the same to a command that needs them initialised. -/
  live : ∀ c ∈ contextsOf i, liveOperand c s = liveOperand c t
  /-- The named contexts exist in both or in neither. -/
  exist : ∀ c ∈ contextsOf i, (c.toNat < s.nctx ↔ c.toNat < t.nctx)
  kept : s.err ≠ .none ∨ i = .nop → R s t
  acknowledged : i = .errack → R (acknowledge s) (acknowledge t)
  rejected : ∀ e, e ≠ .none →
    R { s with err := e, errInfo := encode i } { t with err := e, errInfo := encode i }
  written : ∀ c x, targetOf i = some c → isFinal i = false → c.toNat < s.nctx →
    R (s.putCtx c x) (t.putCtx c x)
  delivered : ∀ c w o x, targetOf i = some c → c.toNat < s.nctx →
    R ((s.deliver c w o).putCtx c x) ((t.deliver c w o).putCtx c x)

/-- Both bodies succeed with related states, or both fail with one error. -/
def bodiesRelated (R : State → State → Prop) (r r' : Except ErrCode State) : Prop :=
  (∃ u v, r = .ok u ∧ r' = .ok v ∧ R u v) ∨ ∃ e, r = .error e ∧ r' = .error e

theorem bodiesRelated_ok {R : State → State → Prop} {u v : State} (h : R u v) :
    bodiesRelated R (.ok u) (.ok v) := .inl ⟨u, v, rfl, rfl, h⟩

theorem bodiesRelated_error {R : State → State → Prop} (e : ErrCode) :
    bodiesRelated R (.error e) (.error e) := .inr ⟨e, rfl, rfl⟩

section
variable {i : Instr} {R : State → State → Prop} {s t : State} {c : CtxIx}

theorem RelatedOn.command (h : RelatedOn i R s t) {body : State → Except ErrCode State}
    (hb : s.err = .none → bodiesRelated R (body s) (body t))
    (hr : ∀ e, body s = .error e → Rejection s.nctx i e) :
    ∃ s' t', command (encode i) body s = .next s' ∧ command (encode i) body t = .next t' ∧
      R s' t' := by
  by_cases hs : s.err = .none
  · have ht : t.err = .none := h.err ▸ hs
    rcases hb hs with ⟨u, v, hu, hv, huv⟩ | ⟨e, hse, hte⟩
    · exact ⟨u, v, command_of_ok hs hu, command_of_ok ht hv, huv⟩
    · exact ⟨_, _, command_of_check hs hse, command_of_check ht hte,
        h.rejected e (hr e hse).ne_none⟩
  · have ht : t.err ≠ .none := h.err ▸ hs
    exact ⟨s, t, command_of_error hs, command_of_error ht, h.kept (.inl hs)⟩

/-- resetCtx after a change of the width leaves nothing of the old context (R160). -/
theorem fresh_with_wid (x y : Context) (w : Width) :
    Context.fresh { x with wid := w } = Context.fresh { y with wid := w } := by
  unfold Context.fresh; rfl

theorem ctxOperand_related (h : c.toNat < s.nctx ↔ c.toNat < t.nctx) :
    (∃ x y, ctxOperand c s = .ok x ∧ ctxOperand c t = .ok y ∧ c.toNat < s.nctx) ∨
      ctxOperand c s = .error .ctx ∧ ctxOperand c t = .error .ctx := by
  by_cases hc : c.toNat < s.nctx
  · exact .inl ⟨_, _, ctxOperand_ok_iff.mpr (List.getElem?_eq_getElem hc),
      ctxOperand_ok_iff.mpr (List.getElem?_eq_getElem (h.mp hc)), hc⟩
  · exact .inr ⟨ctxOperand_error_iff.mpr ⟨Nat.le_of_not_lt hc, rfl⟩,
      ctxOperand_error_iff.mpr ⟨Nat.le_of_not_lt (h.not.mp hc), rfl⟩⟩

theorem lt_nctx_of_liveOperand {x : Context} (h : liveOperand c s = .ok x) : c.toNat < s.nctx :=
  lt_nctx_of_getElem? (liveOperand_ok_iff.mp h).1

theorem RelatedOn.initBody {wid : BitVec 2} (h : RelatedOn (.init c wid) R s t) :
    bodiesRelated R (initBody c wid s) (initBody c wid t) := by
  unfold Machine.initBody
  rcases ctxOperand_related (h.exist c (by simp [contextsOf])) with ⟨x, y, hx, hy, hc⟩ | ⟨hs, ht⟩
  · rw [hx, hy]
    cases widthOperand wid with
    | error e => exact bodiesRelated_error e
    | ok w =>
      refine bodiesRelated_ok ?_
      rw [fresh_with_wid y x]
      exact h.written c _ rfl rfl hc
  · rw [hs, ht]; exact bodiesRelated_error _

theorem RelatedOn.resetBody (h : RelatedOn (.reset c) R s t) :
    bodiesRelated R (resetBody c s) (resetBody c t) := by
  unfold Machine.resetBody
  rw [← h.live c (by simp [contextsOf])]
  cases hx : liveOperand c s with
  | error e => exact bodiesRelated_error e
  | ok x => exact bodiesRelated_ok (h.written c _ rfl rfl (lt_nctx_of_liveOperand hx))

theorem RelatedOn.absorbBody {b : Byte} (h : RelatedOn (.absorb c b) R s t) :
    bodiesRelated R (absorbBody c b s) (absorbBody c b t) := by
  unfold Machine.absorbBody
  rw [← h.live c (by simp [contextsOf])]
  cases hx : liveOperand c s with
  | error e => exact bodiesRelated_error e
  | ok x => exact bodiesRelated_ok (h.written c _ rfl rfl (lt_nctx_of_liveOperand hx))

theorem RelatedOn.finalBody {olen : BitVec 7} (h : RelatedOn (.final c olen) R s t) :
    bodiesRelated R (finalBody c olen s) (finalBody c olen t) := by
  unfold Machine.finalBody
  rw [← h.live c (by simp [contextsOf])]
  cases hx : liveOperand c s with
  | error e => exact bodiesRelated_error e
  | ok x =>
    simp only [bind, Except.bind]
    cases sizeOperand olen x.wid with
    | error e => exact bodiesRelated_error e
    | ok _ => exact bodiesRelated_ok (h.delivered c _ _ _ rfl (lt_nctx_of_liveOperand hx))

theorem RelatedOn.cloneBody {d src : CtxIx} (h : RelatedOn (.clone d src) R s t) :
    bodiesRelated R (cloneBody d src s) (cloneBody d src t) := by
  unfold Machine.cloneBody
  rw [← h.live src (by simp [contextsOf])]
  rcases ctxOperand_related (h.exist d (by simp [contextsOf])) with ⟨x, y, hx, hy, hd⟩ | ⟨hs, ht⟩
  · rw [hx, hy]
    cases liveOperand src s with
    | error e => exact bodiesRelated_error e
    | ok z => exact bodiesRelated_ok (h.written d _ rfl rfl hd)
  · rw [hs, ht]; exact bodiesRelated_error _

/-- A command takes two related states to related states. -/
theorem exec_related (h : RelatedOn i R s t) :
    ∃ s' t', exec i s = .next s' ∧ exec i t = .next t' ∧ R s' t' := by
  cases i with
  | nop => exact ⟨s, t, rfl, rfl, h.kept (.inr rfl)⟩
  | errack => exact ⟨_, _, rfl, rfl, h.acknowledged rfl⟩
  | init c wid => exact h.command (fun _ => h.initBody) fun _ => rejection_of_initBody
  | reset c => exact h.command (fun _ => h.resetBody) fun _ => rejection_of_resetBody
  | absorb c b => exact h.command (fun _ => h.absorbBody) fun _ => rejection_of_absorbBody
  | final c olen => exact h.command (fun _ => h.finalBody) fun _ => rejection_of_finalBody
  | clone d src => exact h.command (fun _ => h.cloneBody) fun _ => rejection_of_cloneBody

end

/-! ### What the window reads -/

/-- Two states read the same at an offset when the register that stands there is the same (R52). -/
theorem readWord_congr {s t : State} {off : Nat} (hstatus : off = 0x004 → s.status = t.status)
    (hinfo : off = 0x008 → s.errInfo = t.errInfo)
    (hctx : ∀ i, i < 16 → off = 0x010 + 4 * i → s.ctxstat i = t.ctxstat i)
    (hdigest : 0x100 ≤ off → off < 0x140 → s.digest = t.digest) :
    s.readWord off = t.readWord off := by
  unfold State.readWord
  split_ifs with h1 h2 h3 h4 h5
  · rfl
  · exact hstatus h2
  · exact hinfo h3
  · exact hctx _ (by omega) (by omega)
  · unfold State.digestW; rw [hdigest h5.1 h5.2]
  · rfl

/-! ### States that no host can tell apart -/

theorem Context.indist_refl (x : Context) : x.indist x := .inr rfl

theorem Context.indist.stat_eq {x y : Context} (h : x.indist y) : x.stat = y.stat := by
  rcases h with ⟨hx, hy⟩ | rfl
  · rw [stat_of_uninit hx, stat_of_uninit hy]
  · rfl

/-- States are indistinguishable when they have the same registers and their contexts are so in
pairs. -/
theorem State.indist_iff {s t : State} :
    s.indist t ↔ ∃ cs, t = { s with ctxs := cs } ∧ List.Forall₂ Context.indist s.ctxs cs := by
  constructor
  · rintro ⟨ht, hn, hctx⟩
    refine ⟨t.ctxs, ht, List.forall₂_iff_get.mpr ⟨hn.symm, fun i h1 h2 => ?_⟩⟩
    exact hctx i _ _ (List.getElem?_eq_getElem h1) (List.getElem?_eq_getElem h2)
  · rintro ⟨cs, rfl, hcs⟩
    obtain ⟨hn, hctx⟩ := List.forall₂_iff_get.mp hcs
    refine ⟨rfl, hn.symm, fun i x y hx hy => ?_⟩
    obtain ⟨h1, rfl⟩ := List.getElem?_eq_some_iff.mp hx
    obtain ⟨h2, rfl⟩ := List.getElem?_eq_some_iff.mp hy
    exact hctx i h1 h2

theorem forall₂_indist_set {l l' : List Context} (h : List.Forall₂ Context.indist l l')
    (x : Context) (n : Nat) : List.Forall₂ Context.indist (l.set n x) (l'.set n x) := by
  induction h generalizing n with
  | nil => exact .nil
  | cons hd tl ih =>
    cases n with
    | zero => exact .cons x.indist_refl tl
    | succ n => exact .cons hd (ih n)

namespace State.indist

variable {s t : State}

theorem refl (s : State) : s.indist s :=
  indist_iff.mpr ⟨s.ctxs, rfl, List.forall₂_same.mpr fun x _ => x.indist_refl⟩

theorem nctx_eq (h : s.indist t) : s.nctx = t.nctx := h.2.1.symm

/-- Both states have a context at an index, and no access tells the two apart, or neither has. -/
theorem getElem? (h : s.indist t) (i : Nat) :
    (∃ x y, s.ctxs[i]? = some x ∧ t.ctxs[i]? = some y ∧ x.indist y) ∨
      s.ctxs[i]? = none ∧ t.ctxs[i]? = none := by
  by_cases hi : i < s.nctx
  · have hx := List.getElem?_eq_getElem hi
    have hy := List.getElem?_eq_getElem (h.nctx_eq ▸ hi)
    exact .inl ⟨_, _, hx, hy, h.2.2 i _ _ hx hy⟩
  · have hle : s.nctx ≤ i := Nat.le_of_not_lt hi
    exact .inr ⟨List.getElem?_eq_none hle, List.getElem?_eq_none (h.nctx_eq ▸ hle : t.nctx ≤ i)⟩

theorem ctxstat_eq (h : s.indist t) (i : Nat) : s.ctxstat i = t.ctxstat i := by
  unfold ctxstat
  rcases h.getElem? i with ⟨x, y, hx, hy, hxy⟩ | ⟨hx, hy⟩
  · rw [hx, hy]; exact hxy.stat_eq
  · rw [hx, hy]

/-- No access shows what an UNINIT context holds (R33). -/
theorem readWord_eq (h : s.indist t) (off : Nat) : s.readWord off = t.readWord off := by
  have hctx := h.ctxstat_eq
  have hn := h.nctx_eq
  obtain ⟨cs, rfl, -⟩ := indist_iff.mp h
  refine readWord_congr (fun _ => ?_) (fun _ => rfl) (fun i _ _ => hctx i) fun _ _ => rfl
  unfold status nctxM1
  rw [hn]

/-- A command that needs its operand initialised cannot tell the states apart (R201). -/
theorem liveOperand_eq (h : s.indist t) (c : CtxIx) : liveOperand c s = liveOperand c t := by
  unfold liveOperand ctxOperand
  rcases h.getElem? c.toNat with ⟨x, y, hx, hy, ⟨hxu, hyu⟩ | rfl⟩ | ⟨hx, hy⟩
  · rw [hx, hy]; simp only [hxu, hyu, if_true]
  · rw [hx, hy]
  · rw [hx, hy]

theorem putCtx (h : s.indist t) (c : CtxIx) (x : Context) :
    (s.putCtx c x).indist (t.putCtx c x) := by
  obtain ⟨cs, rfl, hcs⟩ := indist_iff.mp h
  exact indist_iff.mpr ⟨cs.set c.toNat x, rfl, forall₂_indist_set hcs x c.toNat⟩

theorem deliver (h : s.indist t) (c : CtxIx) (w : Width) (o : List Byte) :
    (s.deliver c w o).indist (t.deliver c w o) := by
  obtain ⟨cs, rfl, hcs⟩ := indist_iff.mp h
  unfold State.deliver
  exact indist_iff.mpr ⟨cs, rfl, hcs⟩

theorem with_error (h : s.indist t) (e : ErrCode) (info : Word) :
    State.indist { s with err := e, errInfo := info } { t with err := e, errInfo := info } := by
  obtain ⟨cs, rfl, hcs⟩ := indist_iff.mp h
  exact indist_iff.mpr ⟨cs, rfl, hcs⟩

theorem with_pending (h : s.indist t) (p : List BusEvent) :
    State.indist { s with pending := p } { t with pending := p } := by
  obtain ⟨cs, rfl, hcs⟩ := indist_iff.mp h
  exact indist_iff.mpr ⟨cs, rfl, hcs⟩

theorem err_eq (h : s.indist t) : s.err = t.err := by
  obtain ⟨cs, rfl, -⟩ := indist_iff.mp h; rfl

theorem pending_eq (h : s.indist t) : s.pending = t.pending := by
  obtain ⟨cs, rfl, -⟩ := indist_iff.mp h; rfl

theorem offset?_eq (h : s.indist t) (addr : Nat) : s.offset? addr = t.offset? addr := by
  obtain ⟨cs, rfl, -⟩ := indist_iff.mp h; rfl

theorem raise (h : s.indist t) (e : ErrCode) (info : Word) :
    (raise e info s).indist (raise e info t) := by
  by_cases hs : s.err = .none
  · rw [raise_of_none s hs, raise_of_none t (h.err_eq ▸ hs)]; exact h.with_error e info
  · rwa [raise_of_error s hs, raise_of_error t (h.err_eq ▸ hs)]

theorem acknowledge (h : s.indist t) : (acknowledge s).indist (acknowledge t) := by
  by_cases hs : s.err = .none
  · rwa [acknowledge_of_none s hs, acknowledge_of_none t (h.err_eq ▸ hs)]
  · rw [acknowledge_of_error s hs, acknowledge_of_error t (h.err_eq ▸ hs)]
    exact h.with_error .none 0

theorem answerRead (h : s.indist t) (off : Nat) :
    (answerRead off s).indist (answerRead off t) := by
  have hw := h.readWord_eq off
  obtain ⟨cs, rfl, hcs⟩ := indist_iff.mp h
  unfold Machine.answerRead
  rw [hw]
  exact indist_iff.mpr ⟨cs, rfl, hcs⟩

/-- Hardware reset overwrites all that the states may differ in. -/
theorem hardwareReset_eq (h : s.indist t) : hardwareReset s = hardwareReset t := by
  have hn := h.nctx_eq
  obtain ⟨cs, rfl, -⟩ := indist_iff.mp h
  unfold hardwareReset
  rw [hn]

/-- Every path of every command keeps the states indistinguishable. -/
theorem relatedOn (h : s.indist t) (i : Instr) : RelatedOn i State.indist s t where
  err := h.err_eq
  live c _ := h.liveOperand_eq c
  exist c _ := by rw [h.nctx_eq]
  kept _ := h
  acknowledged _ := h.acknowledge
  rejected e _ := h.with_error e _
  written c x _ _ _ := h.putCtx c x
  delivered c w o x _ _ := (h.deliver c w o).putCtx c x

end State.indist

/-- Two outcomes no host can tell apart: next states that are so, or the same stop. -/
def outcomesIndist : Host.Outcome State Fault Refusal → Host.Outcome State Fault Refusal → Prop
  | .next s, .next t => s.indist t
  | .fault f, .fault f' => f = f'
  | .refused r, .refused r' => r = r'
  | _, _ => False

theorem executeCommand_indist {s t : State} (h : s.indist t) (w : Word) :
    outcomesIndist (executeCommand w s) (executeCommand w t) := by
  unfold executeCommand
  cases decode w with
  | error e => exact h.raise _ w
  | ok i =>
    obtain ⟨s', t', hs, ht, hst⟩ := exec_related (h.relatedOn i)
    simp only [hs, ht]
    exact hst

theorem writeWord_indist {s t : State} (h : s.indist t) (off : Nat) (lanes : BitVec 4) (v : Word) :
    outcomesIndist (writeWord off lanes v s) (writeWord off lanes v t) := by
  unfold writeWord
  split_ifs
  · exact h.raise _ _
  · exact executeCommand_indist h v
  · exact h.raise _ _

theorem takeEvent_indist {s t : State} (h : s.indist t) (e : BusEvent) :
    outcomesIndist (takeEvent e s) (takeEvent e t) := by
  cases e with
  | hwReset =>
    show (hardwareReset s).indist (hardwareReset t)
    rw [h.hardwareReset_eq]
    exact .refl _
  | read addr lanes =>
    simp only [takeEvent, ← h.offset?_eq addr]
    cases s.offset? addr with
    | none => rfl
    | some off => exact h.answerRead off
  | write addr lanes v =>
    simp only [takeEvent, ← h.offset?_eq addr]
    cases s.offset? addr with
    | none => rfl
    | some off => exact writeWord_indist h off lanes v

theorem step_indist {s t : State} (h : s.indist t) : outcomesIndist (step s) (step t) := by
  cases hp : s.pending with
  | nil =>
    rw [step_of_idle hp, step_of_idle (h.pending_eq ▸ hp)]
    exact h
  | cons e rest =>
    rw [step_of_event hp, step_of_event (h.pending_eq ▸ hp)]
    exact takeEvent_indist (h.with_pending rest) e

/-- Settles O56: a command reaches an UNINIT context only to overwrite it, and its view is 0. -/
theorem uninitContentsAreNotObservable : Obligations.UninitContentsAreNotObservable := by
  intro s t h
  have hstep := step_indist h
  refine ⟨h.readWord_eq, fun s' hs => ?_, fun r hs => ?_⟩ <;> rw [hs] at hstep
  · cases ht : step t <;> rw [ht] at hstep
    case next t' => exact ⟨t', rfl, hstep⟩
    all_goals exact hstep.elim
  · cases ht : step t <;> rw [ht] at hstep
    case refused r' => exact congrArg _ hstep.symm
    all_goals exact hstep.elim

/-! ### A command's result and the contexts it names -/

/-- The same value in context `c`, the same ERR, and after an accepted FINAL the same digest and
width. -/
def sameResult (i : Instr) (c : CtxIx) (t t' : State) : Prop :=
  t.ctxs[c.toNat]? = t'.ctxs[c.toNat]? ∧ t.err = t'.err ∧
    (isFinal i = true → t.err = .none → t.digest = t'.digest ∧ t.dwid = t'.dwid)

/-- An operand form sees one context of the state. -/
theorem liveOperand_congr {s t : State} {c : CtxIx} (h : s.ctxs[c.toNat]? = t.ctxs[c.toNat]?) :
    liveOperand c s = liveOperand c t := by
  unfold liveOperand ctxOperand
  rw [h]

theorem lt_nctx_congr {s t : State} {c : CtxIx} (h : s.ctxs[c.toNat]? = t.ctxs[c.toNat]?) :
    c.toNat < s.nctx ↔ c.toNat < t.nctx := by
  rw [← not_iff_not, Nat.not_lt, Nat.not_lt, State.nctx, State.nctx, ← List.getElem?_eq_none_iff,
    ← List.getElem?_eq_none_iff, h]

theorem targetOf_mem_contextsOf {i : Instr} {c : CtxIx} (h : targetOf i = some c) :
    c ∈ contextsOf i := by
  cases i <;> cases h <;> simp [contextsOf]

/-- On states without an error that agree on the contexts a command names, all its paths have the
same result. -/
theorem relatedOn_sameResult {i : Instr} {c : CtxIx} {s t : State} (hc : targetOf i = some c)
    (hctx : ∀ k ∈ contextsOf i, s.ctxs[k.toNat]? = t.ctxs[k.toNat]?) (hs : s.err = .none)
    (ht : t.err = .none) : RelatedOn i (sameResult i c) s t where
  err := by rw [hs, ht]
  live k hk := liveOperand_congr (hctx k hk)
  exist k hk := lt_nctx_congr (hctx k hk)
  kept h := by
    rcases h with h | rfl
    · exact absurd hs h
    · cases hc
  acknowledged h := by subst h; cases hc
  rejected e he := ⟨hctx c (targetOf_mem_contextsOf hc), rfl, fun _ h => absurd h he⟩
  written d x hd hf hlt := by
    obtain rfl : c = d := Option.some.inj (hc.symm.trans hd)
    have hlt' := (lt_nctx_congr (hctx c (targetOf_mem_contextsOf hc))).mp hlt
    refine ⟨?_, by simp [hs, ht], fun h => by rw [hf] at h; cases h⟩
    rw [putCtx_getElem?_self s c x hlt, putCtx_getElem?_self t c x hlt']
  delivered d w o x hd hlt := by
    obtain rfl : c = d := Option.some.inj (hc.symm.trans hd)
    have hlt' := (lt_nctx_congr (hctx c (targetOf_mem_contextsOf hc))).mp hlt
    refine ⟨?_, by simp [hs, ht], fun _ _ => by simp⟩
    rw [putCtx_getElem?_self _ c x (by simpa using hlt),
      putCtx_getElem?_self _ c x (by simpa using hlt')]

/-- Settles O54. -/
theorem contextResultsDependOnlyOnTheirContexts :
    Obligations.ContextResultsDependOnlyOnTheirContexts := by
  intro i c s s' t t' hc hctx hs hs' ht ht'
  obtain ⟨u, u', hu, hu', hr⟩ := exec_related (relatedOn_sameResult hc hctx hs hs')
  rw [ht] at hu; cases hu
  rw [ht'] at hu'; cases hu'
  exact hr

/-! ### What a command leaves unchanged -/

/-- What a command can do to a state, whatever values it writes. -/
inductive Touches : Instr → State → State → Prop where
  | nothing {i s} : Touches i s s
  | error {i s e} (h : s.err = .none) : Touches i s { s with err := e, errInfo := encode i }
  | acknowledge {s} : Touches .errack s (acknowledge s)
  | context {i s c x} (h : targetOf i = some c) : Touches i s (s.putCtx c x)
  | digest {i s c w o x} (h : targetOf i = some c) (hf : isFinal i = true) :
      Touches i s ((s.deliver c w o).putCtx c x)

theorem Did.touches {i : Instr} {s t : State} (h : Did i s t) : Touches i s t := by
  cases h with
  | dropped => exact .nothing
  | rejected hs => exact .error hs
  | nop => exact .nothing
  | errack => exact .acknowledge
  | init => exact .context rfl
  | reset => exact .context rfl
  | absorb => exact .context rfl
  | final => exact .digest rfl rfl
  | clone => exact .context rfl

namespace Touches

variable {i : Instr} {s t : State}

theorem sameBus (h : Touches i s t) : sameBus s t := by
  cases h <;> simp [Machine.sameBus]

theorem nctx_eq (h : Touches i s t) : t.nctx = s.nctx := by
  cases h with
  | error => rfl
  | _ => simp

/-- A context other than the target is unchanged (R20). -/
theorem getElem?_other (h : Touches i s t) {j : Nat}
    (hj : ∀ c, targetOf i = some c → j ≠ c.toNat) : t.ctxs[j]? = s.ctxs[j]? := by
  cases h with
  | nothing => rfl
  | error => rfl
  | acknowledge => rw [acknowledge_ctxs]
  | context hc => exact putCtx_getElem?_other _ _ _ (hj _ hc)
  | digest hc => rw [putCtx_getElem?_other _ _ _ (hj _ hc), deliver_ctxs]

/-- Only FINAL writes DIGEST and its tags (R29). -/
theorem sameDigest (h : Touches i s t) (hf : isFinal i = false) : sameDigest s t := by
  cases h with
  | digest _ hf' => rw [hf] at hf'; cases hf'
  | _ => simp [Machine.sameDigest]

/-- A command that changes ERR or ERRINFO changes nothing else (R202). -/
theorem of_not_sameError (h : Touches i s t) (he : ¬ sameError s t) :
    t.ctxs = s.ctxs ∧ Machine.sameDigest s t ∧
      (i = .errack ∨ (s.err = .none ∧ t.errInfo = encode i)) := by
  cases h with
  | nothing => exact absurd ⟨rfl, rfl⟩ he
  | error hs => exact ⟨rfl, ⟨rfl, rfl, rfl, rfl⟩, .inr ⟨hs, rfl⟩⟩
  | acknowledge => exact ⟨acknowledge_ctxs s, by simp [Machine.sameDigest], .inl rfl⟩
  | context => exact absurd ⟨rfl, rfl⟩ he
  | digest => exact absurd (by simp [sameError]) he

end Touches

/-- Settles O20. -/
theorem commandsLeaveTheRestUnchanged : Obligations.CommandsLeaveTheRestUnchanged := by
  intro i s t h
  have ht := (did_of_exec h).touches
  exact ⟨ht.sameBus, ht.nctx_eq, fun j => ht.getElem?_other, ht.sameDigest, ht.of_not_sameError⟩

/-- CTXSTAT[k] shows nothing but context k (R32). -/
theorem ctxstat_congr {s t : State} {k : Nat} (h : s.ctxs[k]? = t.ctxs[k]?) :
    s.ctxstat k = t.ctxstat k := by
  unfold State.ctxstat
  rw [h]

/-- Settles O21: the registers behind the other offsets are among those O20 says are unchanged. -/
theorem commandsLeaveOtherOffsetsUnchanged : Obligations.CommandsLeaveOtherOffsetsUnchanged := by
  intro i s t off h hstatus hinfo htarget hfinal
  obtain ⟨-, -, hctx, hdigest, -⟩ := commandsLeaveTheRestUnchanged i s t h
  refine readWord_congr (fun h => absurd h hstatus) (fun h => absurd h hinfo) ?ctxstat ?digest
  case ctxstat =>
    rintro k - rfl
    exact ctxstat_congr (hctx k fun c hc hk => htarget c hc (by rw [hk]))
  case digest =>
    intro hlo hhi
    cases hf : isFinal i with
    | false => exact (hdigest hf).2.2.2
    | true => rcases hfinal hf with h | h <;> omega

/-! ### Which commands change a context, and how -/

/-- A write changes no context but its own, and that to the value written. -/
theorem eq_of_putCtx_changed {s : State} {c : CtxIx} {z x y : Context} {j : Nat}
    (hx : s.ctxs[j]? = some x) (hy : (s.putCtx c z).ctxs[j]? = some y) (hne : y ≠ x) :
    c.toNat = j ∧ y = z := by
  by_cases hj : j = c.toNat
  · subst hj
    rw [putCtx_getElem?_self s c z (lt_nctx_of_getElem? hx)] at hy
    exact ⟨rfl, (Option.some.inj hy).symm⟩
  · rw [putCtx_getElem?_other s c z hj, hx] at hy
    exact absurd (Option.some.inj hy).symm hne

/-- `Becomes i s j x y`: the command takes context `j` from `x` to `y`. -/
inductive Becomes : Instr → State → Nat → Context → Context → Prop where
  | init {s c wid w x} : Becomes (.init c wid) s c.toNat x (Context.fresh { x with wid := w })
  | reset {s c x} : Becomes (.reset c) s c.toNat x x.fresh
  | absorb {s c b x} : Becomes (.absorb c b) s c.toNat x (x.absorb b)
  | final {s c olen x} : Becomes (.final c olen) s c.toNat x x.fresh
  | clone {s d src x z} (hz : s.ctxs[src.toNat]? = some z) : Becomes (.clone d src) s d.toNat x z

/-- A command that changes a context is accepted, and changes it by its own effect. -/
theorem Did.becomes {i : Instr} {s t : State} {j : Nat} {x y : Context} (h : Did i s t)
    (hx : s.ctxs[j]? = some x) (hy : t.ctxs[j]? = some y) (hne : y ≠ x) :
    s.err = .none ∧ Becomes i s j x y := by
  have hsame : s.ctxs[j]? ≠ some y := fun hy' => hne (Option.some.inj (hy'.symm.trans hx))
  cases h with
  | dropped => exact absurd hy hsame
  | rejected => exact absurd hy hsame
  | nop => exact absurd hy hsame
  | errack => exact absurd (acknowledge_ctxs s ▸ hy) hsame
  | init hs hc =>
    obtain ⟨rfl, rfl⟩ := eq_of_putCtx_changed hx hy hne
    cases hc.symm.trans hx
    exact ⟨hs, .init⟩
  | reset hs hc =>
    obtain ⟨rfl, rfl⟩ := eq_of_putCtx_changed hx hy hne
    cases hc.symm.trans hx
    exact ⟨hs, .reset⟩
  | absorb hs hc =>
    obtain ⟨rfl, rfl⟩ := eq_of_putCtx_changed hx hy hne
    cases hc.symm.trans hx
    exact ⟨hs, .absorb⟩
  | final hs hc =>
    obtain ⟨rfl, rfl⟩ := eq_of_putCtx_changed (by rw [deliver_ctxs, hx]) hy hne
    cases hc.symm.trans hx
    exact ⟨hs, .final⟩
  | clone hs _ hz =>
    obtain ⟨rfl, rfl⟩ := eq_of_putCtx_changed hx hy hne
    exact ⟨hs, .clone hz⟩

/-- Settles O23. -/
theorem lifeCycleTransitions : Obligations.LifeCycleTransitions := by
  intro i s t j x y h hx hy hcst
  obtain ⟨hs, hb⟩ := (did_of_exec h).becomes hx hy fun hyx => hcst (by rw [hyx])
  refine ⟨hs, ?_⟩
  cases hb with
  | init => exact .inl ⟨_, _, rfl, rfl, rfl⟩
  | reset => exact .inr (.inl ⟨_, rfl, rfl, rfl⟩)
  | absorb => exact .inr (.inr (.inl ⟨_, _, rfl, rfl, absorb_cst _ _⟩))
  | final => exact .inr (.inr (.inr (.inl ⟨_, _, rfl, rfl, rfl⟩)))
  | clone hz => exact .inr (.inr (.inr (.inr ⟨_, _, _, rfl, rfl, hz, rfl⟩)))

/-- Settles O24: resetCtx and ABSORB keep the width. -/
theorem onlyInitAndCloneChangeTheWidth : Obligations.OnlyInitAndCloneChangeTheWidth := by
  intro i s t j x y h hx hy hwid
  obtain ⟨-, hb⟩ := (did_of_exec h).becomes hx hy fun hyx => hwid (by rw [hyx])
  cases hb with
  | init => exact .inl ⟨_, _, rfl, rfl⟩
  | reset => exact absurd (fresh_wid x) hwid
  | absorb => exact absurd (absorb_wid x _) hwid
  | final => exact absurd (fresh_wid x) hwid
  | clone hz => exact .inr ⟨_, _, _, rfl, rfl, hz, rfl⟩

/-- Byte `i` of the block as the stream has it: the reversal of consumeFull undone (R60, R161). -/
theorem byte_rev_ofList (l : List Byte) {i : Nat} (hi : i < 64) :
    byte (rev (ofList l)) (63 - i) = l.getD i 0 := by
  have hinv : 63 - (63 - i) = i := by omega
  rw [byte_rev _ _ (by omega), hinv, byte_ofList l i hi]

/-- Settles O25. -/
theorem chainCounterAndChecksumMoveTogether : Obligations.ChainCounterAndChecksumMoveTogether := by
  intro s t c b x y h hx hy hlen
  by_cases hyx : y = x
  · exact .inl (by simp [hyx])
  obtain ⟨-, hb⟩ := (did_of_exec h).becomes hx hy hyx
  obtain rfl : y = x.absorb b := by cases hb; rfl
  by_cases hfull : x.buf.length = 63
  · rw [absorb_of_full hfull]
    refine .inr ⟨rev (ofList (x.buf ++ [b])), consume_h x _ 512,
      consume_N x (rev (ofList (x.buf ++ [b]))) 512, consume_sigma x _ 512, ?_, ?_⟩
    · intro i hi
      have hget : x.buf[i]? = some x.buf[i] := List.getElem?_eq_getElem (by omega)
      rw [byte_rev_ofList _ (by omega), hget, List.getD_append _ _ _ _ (by omega),
        List.getD_eq_getElem?_getD, hget, Option.getD_some]
    · have hlast := byte_rev_ofList (x.buf ++ [b]) (i := 63) (by decide)
      rw [show 63 - 63 = 0 from rfl] at hlast
      rw [hlast, ← hfull]
      simp
  · rw [absorb_of_room hfull]
    exact .inl ⟨rfl, rfl, rfl⟩

/-! ### Words that are a FINAL -/

/-- The fields of a word that decodes to a FINAL (R81, R82, R86, R87). -/
theorem fields_of_decode_final {w : Word} {c : CtxIx} {olen : BitVec 7}
    (h : decode w = .ok (.final c olen)) :
    opField w = 4#4 ∧ ctxField w = c ∧ olenField w = olen ∧ w &&& reservedMask (opField w) = 0 := by
  obtain ⟨hsel, hmask⟩ := decode_eq_ok_iff.mp h
  unfold selectCommand at hsel
  split at hsel <;> cases hsel
  next hop => exact ⟨BitVec.eq_of_toNat_eq hop, rfl, rfl, hmask⟩

/-- A word that decodes to a FINAL is the encoding of it (R91): bits 31..28 are the opcode, bits 23..7
reserved, and the rest the two fields. -/
theorem encode_of_decode_final {w : Word} {c : CtxIx} {olen : BitVec 7}
    (h : decode w = .ok (.final c olen)) : encode (.final c olen) = w := by
  obtain ⟨hop, rfl, rfl, hmask⟩ := fields_of_decode_final h
  rw [hop] at hmask
  apply BitVec.eq_of_getLsbD_eq
  intro k hk
  have hopk := congrArg (fun v : BitVec 4 => v.getLsbD (k - 28)) hop
  have hmaskk := congrArg (fun v : Word => v.getLsbD k) hmask
  simp only [opField, BitVec.getLsbD_extractLsb', BitVec.getLsbD_and] at hopk hmaskk
  interval_cases k <;> simp_all [encode, atCtx, ctxField, olenField, reservedMask]

/-- The size check (R86) with the sizes written out as check has them (R201). -/
theorem digestBytes_eq_ite (w : Width) : w.digestBytes = if w = .narrow then 32 else 64 := by
  cases w <;> rfl

/-- check finds no error in a FINAL of an initialised context with the right size (R201). -/
theorem checkWord_of_final {w : Word} {s : State} {c : CtxIx} {olen : BitVec 7} {x : Context}
    (h : decode w = .ok (.final c olen)) (hx : s.ctxs[c.toNat]? = some x) (hu : x.cst ≠ .uninit)
    (hz : olen.toNat = x.wid.digestBytes) : checkWord w s = .none := by
  obtain ⟨hop, rfl, rfl, hmask⟩ := fields_of_decode_final h
  have hlt := lt_nctx_of_getElem? hx
  rw [hop] at hmask
  rw [digestBytes_eq_ite] at hz
  simp [checkWord, hop, hmask, isUninit, wrongSize, hx, hu, hz, Nat.not_le.mpr hlt]

/-- Only a FINAL that passes its checks changes DIGEST or its tags (R29). -/
theorem Did.final_of_not_sameDigest {i : Instr} {s t : State} (h : Did i s t)
    (hd : ¬ sameDigest s t) : ∃ c olen x, i = .final c olen ∧ s.err = .none ∧
      s.ctxs[c.toNat]? = some x ∧ x.cst ≠ .uninit ∧ olen.toNat = x.wid.digestBytes := by
  cases h with
  | final hs hx hu hz => exact ⟨_, _, _, rfl, hs, hx, hu, hz⟩
  | errack => exact absurd (Touches.acknowledge.sameDigest rfl) hd
  | _ => exact absurd ⟨rfl, rfl, rfl, rfl⟩ hd

/-- A word whose execution changes DIGEST or its tags is a FINAL that the state accepts. -/
theorem executeCommand_changes_digest {w : Word} {s t : State}
    (h : executeCommand w s = .next t) (hd : ¬ sameDigest s t) :
    ∃ c olen, w = encode (.final c olen) ∧ accepts s (.final c olen) := by
  rcases executeCommand_cases h with ⟨i, hw, hi⟩ | ⟨e, -, he⟩
  · obtain ⟨c, olen, x, rfl, hs, hx, hu, hz⟩ := (did_of_exec hi).final_of_not_sameDigest hd
    obtain rfl := encode_of_decode_final hw
    exact ⟨c, olen, rfl, hs, checkWord_of_final hw hx hu hz⟩
  · cases he
    exact absurd (by simp [sameDigest]) hd

/-- Settles O22: of the events only reset and a command word touch the digest. -/
theorem onlyFinalWritesTheDigest : Obligations.OnlyFinalWritesTheDigest := by
  intro s t h hd
  rcases step_cases h with ⟨-, rfl⟩ | ⟨e, rest, hp, he⟩
  · exact absurd ⟨rfl, rfl, rfl, rfl⟩ hd
  refine ⟨e, rest, hp, ?_⟩
  rcases takeEvent_cases he with ⟨off, lanes, -, -, rfl⟩ | ⟨off, lanes, v, -, -, -, rfl⟩ |
    ⟨v, rfl, hv⟩ | ⟨rfl, -⟩
  · exact absurd ⟨rfl, rfl, rfl, rfl⟩ hd
  · exact absurd (by simp [sameDigest]) hd
  · obtain ⟨c, olen, rfl, hacc⟩ := executeCommand_changes_digest hv hd
    exact .inr ⟨c, olen, rfl, hacc⟩
  · exact .inl rfl

/-! ### The registers of the window, field by field -/

theorem readWord_status (s : State) : s.readWord 0x004 = s.status := rfl

theorem readWord_errInfo (s : State) : s.readWord 0x008 = s.errInfo := rfl

theorem readWord_ctxstat (s : State) {i : Nat} (hi : i < 16) :
    s.readWord (0x010 + 4 * i) = s.ctxstat i := by
  have halign : (0x010 + 4 * i) % 4 = 0 := by omega
  have h4 : 0x010 + 4 * i ≠ 0x004 := by omega
  have h8 : 0x010 + 4 * i ≠ 0x008 := by omega
  have hin : 0x010 ≤ 0x010 + 4 * i ∧ 0x010 + 4 * i < 0x050 := by omega
  have hix : (0x010 + 4 * i - 0x010) / 4 = i := by omega
  rw [State.readWord, if_neg (not_not.mpr halign), if_neg h4, if_neg h8, if_pos hin, hix]

/-- A write to a register that is no CMD raises E_BUS (R56). -/
theorem writeWord_status {s : State} (v : Word) (hs : s.err = .none) :
    writeWord 0x004 0b1111#4 v s = .next { s with err := .bus, errInfo := 0x004 } := by
  rw [← raise_of_none s hs]
  rfl

/-- A field of a register is `f` when its bits are those of `f`. -/
theorem extractLsb'_eq_of_getLsbD {w : Word} {start len : Nat} {f : BitVec len}
    (h : ∀ k < len, w.getLsbD (start + k) = f.getLsbD k) : w.extractLsb' start len = f :=
  BitVec.eq_of_getLsbD_eq fun k hk => by
    rw [BitVec.getLsbD_extractLsb', decide_eq_true hk, Bool.true_and, h k hk]

/-- The fields of STATUS (R30). -/
theorem fields_of_status (s : State) :
    s.status.extractLsb' 0 4 = s.err.code ∧ s.status.extractLsb' 4 4 = 0#4 ∧
      s.status.extractLsb' 8 1 = BitVec.ofBool s.dv ∧
      s.status.extractLsb' 9 2 = dwidCode s.dwid ∧ s.status.extractLsb' 11 1 = 0#1 ∧
      s.status.extractLsb' 12 4 = s.dctx ∧ s.status.extractLsb' 16 4 = s.nctxM1 ∧
      s.status.extractLsb' 20 12 = 0#12 := by
  refine ⟨?_, ?_, ?_, ?_, ?_, ?_, ?_, ?_⟩
  all_goals
    refine extractLsb'_eq_of_getLsbD fun k hk => ?_
    rw [getLsbD_status]
    simp (disch := omega) only [if_pos, if_neg, Nat.zero_add, Nat.add_sub_cancel_left,
      BitVec.getLsbD_zero, BitVec.getLsbD_of_ge]

/-- Settles O34. -/
theorem statusFields : Obligations.StatusFields := by
  intro s
  obtain ⟨herr, hlow, hdv, hdwid, hmid, hdctx, hnctx, hhigh⟩ := fields_of_status s
  rw [readWord_status, hdwid]
  refine ⟨herr, hlow, hdv, ?_, hmid, hdctx, hnctx, hhigh, fun hs v => writeWord_status v hs⟩
  rcases s.dwid with _ | _ | _ <;> rfl

/-- The fields of the CTXSTAT word of an initialised context (R32). -/
theorem fields_of_stat {x : Context} (h : x.cst ≠ .uninit) :
    x.stat.extractLsb' 0 2 = x.cst.code ∧ x.stat.extractLsb' 2 2 = x.wid.code ∧
      x.stat.extractLsb' 4 6 = BitVec.ofNat 6 x.buf.length ∧ x.stat.extractLsb' 10 22 = 0#22 := by
  refine ⟨?_, ?_, ?_, ?_⟩
  all_goals
    refine extractLsb'_eq_of_getLsbD fun k hk => ?_
    rw [getLsbD_stat h]
    simp (disch := omega) only [if_pos, if_neg, Nat.zero_add, Nat.add_sub_cancel_left,
      BitVec.getLsbD_zero, BitVec.getLsbD_of_ge]

theorem ctxstat_of_getElem? {s : State} {i : Nat} {x : Context} (h : s.ctxs[i]? = some x) :
    s.ctxstat i = x.stat := by
  unfold State.ctxstat
  rw [h]

theorem ctxstat_of_nctx_le {s : State} {i : Nat} (h : s.nctx ≤ i) : s.ctxstat i = 0 := by
  unfold State.ctxstat
  rw [List.getElem?_eq_none h]

theorem Width.code_eq_ite (w : Width) : w.code = if w = .narrow then 0b01#2 else 0b10#2 := by
  cases w <;> rfl

/-- Settles O36: an UNINIT context shows 0, and LEN fits its field by the invariant. -/
theorem ctxstatFields : Obligations.CtxstatFields := by
  intro s i hi
  rw [readWord_ctxstat s hi]
  refine ⟨fun x hx hinv => ?_, ctxstat_of_nctx_le⟩
  rw [ctxstat_of_getElem? hx]
  by_cases hu : x.cst = .uninit
  · simp [stat_of_uninit hu, hu]
  · obtain ⟨hcst, hwid, hlen, hzero⟩ := fields_of_stat hu
    rw [hcst, hwid, hlen, if_neg hu, if_neg hu]
    refine ⟨?_, x.wid.code_eq_ite, toNat_ofNat_of_lt (by have := hinv.len; omega), hzero⟩
    cases x.cst <;> rfl

/-- Settles O35. -/
theorem errInfoReads : Obligations.ErrInfoReads :=
  fun s => ⟨readWord_errInfo s, fun hinv hs => hinv.errInfo hs⟩

/-! ### Reset -/

/-- Settles O57. -/
theorem resetMeetsInvariant : Obligations.ResetMeetsInvariant :=
  fun _ u h1 h16 => State.resetWith_inv h1 h16 u

theorem nctx_resetWith (n u : Nat) : (State.resetWith n u).nctx = n := List.length_replicate

theorem eq_uninit_of_mem_resetWith {n u : Nat} {x : Context}
    (h : x ∈ (State.resetWith n u).ctxs) : x = Context.uninit := List.eq_of_mem_replicate h

/-- Settles O1. -/
theorem resetStateHoldsTheResetValues : Obligations.ResetStateHoldsTheResetValues := by
  intro n u
  refine ⟨nctx_resetWith n u, fun x hx => ?_, rfl, rfl, rfl, rfl, rfl, rfl, ?_⟩
  · rw [eq_uninit_of_mem_resetWith hx]
    exact ⟨rfl, rfl⟩
  · rw [State.nctxM1, nctx_resetWith]

/-- STATUS after reset shows NCTX − 1 in bits 19..16 (R7, R30). -/
theorem status_resetWith {n : Nat} (h16 : n ≤ 16) (u : Nat) :
    (State.resetWith n u).status = BitVec.ofNat 32 ((n - 1) * 2 ^ 16) := by
  have hlt : n - 1 < 2 ^ 4 := by omega
  apply BitVec.eq_of_getLsbD_eq
  intro k hk
  rw [getLsbD_status, BitVec.getLsbD_ofNat, decide_eq_true hk, Bool.true_and,
    Nat.testBit_mul_two_pow]
  by_cases hlow : k < 16
  · have hge : ¬ 16 ≤ k := by omega
    simp [State.resetWith, ErrCode.code, dwidCode, hlow, hge]
  · simp (disch := omega) only [if_neg]
    rw [State.nctxM1, nctx_resetWith, ← BitVec.testBit_toNat, toNat_ofNat_of_lt hlt,
      decide_eq_true (Nat.le_of_not_lt hlow), Bool.true_and]

theorem ctxstat_resetWith (n u i : Nat) : (State.resetWith n u).ctxstat i = 0 := by
  cases h : (State.resetWith n u).ctxs[i]? with
  | none => rw [State.ctxstat, h]
  | some x =>
    rw [ctxstat_of_getElem? h, eq_uninit_of_mem_resetWith (List.mem_of_getElem? h)]
    exact stat_of_uninit rfl

theorem digestW_resetWith (n u k : Nat) : (State.resetWith n u).digestW k = 0 := by
  simp [State.digestW, byte, State.resetWith]

/-- Settles O3: of the registers of the map only STATUS holds a value after reset. -/
theorem afterResetOnlyNctxReadsNonzero : Obligations.AfterResetOnlyNctxReadsNonzero := by
  intro n u off _ h16 _
  by_cases hstatus : off = 0x004
  · subst hstatus
    rw [if_pos rfl, readWord_status, status_resetWith h16]
  · rw [if_neg hstatus]
    unfold State.readWord
    split_ifs with hbad hinfo hctx hdigest
    · rfl
    · rfl
    · exact ctxstat_resetWith n u _
    · exact digestW_resetWith n u _
    · rfl

/-! ### The stream a context has absorbed -/

theorem length_remainder (msg : List Byte) : (remainder msg).length = msg.length % 64 := by
  rw [remainder, fullBlocks, List.length_drop]
  omega

theorem sixtyfour_mul_fullBlocks_le (msg : List Byte) : 64 * fullBlocks msg ≤ msg.length := by
  rw [fullBlocks]; omega

/-- A full block stays when the message grows. -/
theorem messageBlock_append {msg : List Byte} {k : Nat} (h : 64 * (k + 1) ≤ msg.length)
    (l : List Byte) : messageBlock (msg ++ l) k = messageBlock msg k := by
  have hblock : 64 ≤ (msg.drop (64 * k)).length := by rw [List.length_drop]; omega
  rw [messageBlock, messageBlock, List.drop_append_of_le_length (by omega),
    List.take_append_of_le_length hblock]

theorem chainAfter_append (w : Width) {msg : List Byte} {k : Nat} (h : 64 * k ≤ msg.length)
    (l : List Byte) : chainAfter w (msg ++ l) k = chainAfter w msg k := by
  induction k with
  | zero => rfl
  | succ k ih => rw [chainAfter, chainAfter, ih (by omega), messageBlock_append h]

theorem checksumOf_append {msg : List Byte} {k : Nat} (h : 64 * k ≤ msg.length)
    (l : List Byte) : checksumOf (msg ++ l) k = checksumOf msg k := by
  induction k with
  | zero => rfl
  | succ k ih => rw [checksumOf, checksumOf, ih (by omega), messageBlock_append h]

theorem add512_be64 (m n : Nat) : add512 (be64 m) (be64 n) = be64 (m + n) :=
  (BitVec.ofNat_add m n).symm

/-- The byte that fills the buffer completes the next block of the message. -/
theorem messageBlock_snoc {msg : List Byte} {b : Byte} (h : msg.length % 64 = 63) :
    messageBlock (msg ++ [b]) (fullBlocks msg) = rev (ofList (remainder msg ++ [b])) := by
  have hdrop : (msg ++ [b]).drop (64 * fullBlocks msg) = remainder msg ++ [b] :=
    List.drop_append_of_le_length (sixtyfour_mul_fullBlocks_le msg)
  have hlen : (remainder msg ++ [b]).length = 64 := by
    rw [List.length_append, length_remainder, h, List.length_singleton]
  rw [messageBlock, hdrop, List.take_of_length_le hlen.le]

/-- ABSORB of a byte makes the context of a stream that of the longer stream (R161, R169, R173). -/
theorem absorb_streamContext (w : Width) (msg : List Byte) (b : Byte) :
    (streamContext w msg).absorb b = streamContext w (msg ++ [b]) := by
  have hle := sixtyfour_mul_fullBlocks_le msg
  have hbuf : (streamContext w msg).buf.length = msg.length % 64 := length_remainder msg
  have hlen : (msg ++ [b]).length = msg.length + 1 := by simp
  have hne : msg ++ [b] ≠ [] := by simp
  by_cases hfull : msg.length % 64 = 63
  · have hblocks : fullBlocks (msg ++ [b]) = fullBlocks msg + 1 := by
      rw [fullBlocks, fullBlocks, hlen]; omega
    have hrem : remainder (msg ++ [b]) = [] := by
      rw [← List.length_eq_zero_iff, length_remainder, hlen]; omega
    rw [absorb_of_full (hbuf.trans hfull), Context.consume, streamContext, streamContext, hblocks,
      hrem, if_neg hne, chainAfter, checksumOf, chainAfter_append w hle, checksumOf_append hle,
      messageBlock_snoc hfull, add512_be64, Nat.mul_succ]
  · have hblocks : fullBlocks (msg ++ [b]) = fullBlocks msg := by
      rw [fullBlocks, fullBlocks, hlen]; omega
    have hrem : remainder (msg ++ [b]) = remainder msg ++ [b] := by
      rw [remainder, hblocks, List.drop_append_of_le_length hle, remainder]
    rw [absorb_of_room (by rw [hbuf]; exact hfull), streamContext, streamContext, hblocks, hrem,
      if_neg hne, chainAfter_append w hle, checksumOf_append hle]

theorem streamContext_live (w : Width) (msg : List Byte) :
    (streamContext w msg).cst ≠ .uninit := by
  by_cases h : msg = [] <;> simp [streamContext, h]

/-- The counter after consumeFinal is the length of the message in bits (R22, R162). -/
theorem streamContext_count (w : Width) (msg : List Byte) :
    add512 (streamContext w msg).N (be64 (8 * (streamContext w msg).buf.length)) =
      be64 (8 * msg.length) := by
  have hbits : 512 * fullBlocks msg + 8 * (remainder msg).length = 8 * msg.length := by
    rw [length_remainder, fullBlocks]; omega
  rw [streamContext, add512_be64, hbits]

/-- FINAL's digest of the context of a stream is the digest of the message (R162, R163). -/
theorem finish_streamContext (w : Width) (msg : List Byte) :
    (streamContext w msg).finish = oneShotDigest w msg := by
  rw [Context.finish, Context.close, Context.closeValue, consumeFinal_wid, Context.consumeFinal,
    consume_h, consume_N, consume_sigma, streamContext_count]
  rfl

/-! ### Sequences of commands -/

theorem execAll_cons {i : Instr} {s t : State} (h : exec i s = .next t) (is : List Instr) :
    execAll (i :: is) s = execAll is t := by rw [execAll, h]

theorem execAll_append {is : List Instr} {s t : State} (h : execAll is s = .next t)
    (js : List Instr) : execAll (is ++ js) s = execAll js t := by
  induction is generalizing s with
  | nil => cases h; rfl
  | cons i is ih =>
    rw [List.cons_append]
    cases hi : exec i s with
    | next u => rw [execAll_cons hi] at h ⊢; exact ih h
    | fault f => rw [execAll, hi] at h; cases h
    | refused r => rw [execAll, hi] at h; cases h

theorem exec_absorb {s : State} {c : CtxIx} {x : Context} (b : Byte) (hs : s.err = .none)
    (hx : s.ctxs[c.toNat]? = some x) (hu : x.cst ≠ .uninit) :
    exec (.absorb c b) s = .next (s.putCtx c (x.absorb b)) :=
  command_of_ok hs (absorbBody_ok_iff.mpr ⟨x, hx, hu, rfl⟩)

theorem exec_final {s : State} {c : CtxIx} {olen : BitVec 7} {x : Context} (hs : s.err = .none)
    (hx : s.ctxs[c.toNat]? = some x) (hu : x.cst ≠ .uninit)
    (hz : olen.toNat = x.wid.digestBytes) :
    exec (.final c olen) s = .next ((s.deliver c x.wid x.finish).putCtx c x.fresh) :=
  command_of_ok hs (finalBody_ok_iff.mpr ⟨x, hx, hu, hz, rfl⟩)

theorem exec_clone {s : State} {d src : CtxIx} {x : Context} (hs : s.err = .none)
    (hd : d.toNat < s.nctx) (hx : s.ctxs[src.toNat]? = some x) (hu : x.cst ≠ .uninit) :
    exec (.clone d src) s = .next (s.putCtx d x) :=
  command_of_ok hs (cloneBody_ok_iff.mpr ⟨x, hd, hx, hu, rfl⟩)

/-- One ABSORB per byte takes the context of a stream to that of the longer stream (R173). -/
theorem execAll_absorbCommands {s : State} {c : CtxIx} {w : Width} {a : List Byte}
    (hx : s.ctxs[c.toNat]? = some (streamContext w a)) (hs : s.err = .none) (b : List Byte) :
    execAll (absorbCommands c b) s = .next (s.putCtx c (streamContext w (a ++ b))) := by
  induction b generalizing s a with
  | nil => rw [List.append_nil, putCtx_eq_self s c _ hx]; rfl
  | cons y b ih =>
    have hstep := exec_absorb y hs hx (streamContext_live w a)
    rw [absorb_streamContext] at hstep
    have hx' := putCtx_getElem?_self s c (streamContext w (a ++ [y])) (lt_nctx_of_getElem? hx)
    rw [absorbCommands, List.map_cons, execAll_cons hstep, ← absorbCommands, ih hx' hs,
      putCtx_putCtx, List.append_assoc, List.singleton_append]

/-- FINAL of the context of a stream delivers the digest of the message. -/
theorem exec_final_streamContext {s : State} {c : CtxIx} {w : Width} {olen : BitVec 7}
    {msg : List Byte} (hx : s.ctxs[c.toNat]? = some (streamContext w msg)) (hs : s.err = .none)
    (hz : olen.toNat = w.digestBytes) :
    exec (.final c olen) s =
      .next ((s.deliver c w (oneShotDigest w msg)).putCtx c (streamContext w msg).fresh) := by
  rw [← finish_streamContext]
  exact exec_final hs hx (streamContext_live w msg) hz

/-- The state in which CLONE, b1 into the source and b2 into the destination have left `s`. -/
def State.afterClone (s : State) (d src : CtxIx) (w : Width) (a b1 b2 : List Byte) : State :=
  ((s.putCtx d (streamContext w a)).putCtx src (streamContext w (a ++ b1))).putCtx d
    (streamContext w (a ++ b2))

section
variable {s : State} {d src : CtxIx} {w : Width} {a : List Byte} (b1 b2 : List Byte)

theorem execAll_clone_absorbs (hs : s.err = .none) (hne : d ≠ src) (hd : d.toNat < s.nctx)
    (hx : s.ctxs[src.toNat]? = some (streamContext w a)) :
    execAll ([.clone d src] ++ absorbCommands src b1 ++ absorbCommands d b2) s =
      .next (s.afterClone d src w a b1 b2) := by
  have hix : d.toNat ≠ src.toNat := BitVec.toNat_ne.mp hne
  have hclone : execAll [.clone d src] s = .next (s.putCtx d (streamContext w a)) :=
    execAll_cons (exec_clone hs hd hx (streamContext_live w a)) []
  have hsrc : (s.putCtx d (streamContext w a)).ctxs[src.toNat]? = some (streamContext w a) := by
    rw [putCtx_getElem?_other _ _ _ hix.symm, hx]
  have hdst : ((s.putCtx d (streamContext w a)).putCtx src
      (streamContext w (a ++ b1))).ctxs[d.toNat]? = some (streamContext w a) := by
    rw [putCtx_getElem?_other _ _ _ hix, putCtx_getElem?_self _ _ _ hd]
  rw [List.append_assoc, execAll_append hclone, execAll_append (execAll_absorbCommands hsrc hs b1),
    execAll_absorbCommands hdst hs b2, State.afterClone]

theorem afterClone_getElem?_src (hne : d ≠ src) (hlt : src.toNat < s.nctx) :
    (s.afterClone d src w a b1 b2).ctxs[src.toNat]? = some (streamContext w (a ++ b1)) := by
  have hix : src.toNat ≠ d.toNat := (BitVec.toNat_ne.mp hne).symm
  rw [State.afterClone, putCtx_getElem?_other _ _ _ hix,
    putCtx_getElem?_self _ _ _ (by simpa using hlt)]

theorem afterClone_getElem?_dst (hd : d.toNat < s.nctx) :
    (s.afterClone d src w a b1 b2).ctxs[d.toNat]? = some (streamContext w (a ++ b2)) :=
  putCtx_getElem?_self _ _ _ (by simpa using hd)

end

/-- Settles O52: FINAL of the source leaves the destination alone. -/
theorem clonesAreIndependent : Obligations.ClonesAreIndependent := by
  intro s d src w olen a b1 b2 hs hne hd hx hz
  have hsrc := afterClone_getElem?_src (w := w) (a := a) b1 b2 hne (lt_nctx_of_getElem? hx)
  have hdst := afterClone_getElem?_dst (src := src) (w := w) (a := a) b1 b2 hd
  have hfinal := exec_final_streamContext hsrc hs hz
  have hix : d.toNat ≠ src.toNat := BitVec.toNat_ne.mp hne
  have hdst' := (putCtx_getElem?_other ((s.afterClone d src w a b1 b2).deliver src w
    (oneShotDigest w (a ++ b1))) src (streamContext w (a ++ b1)).fresh hix).trans hdst
  refine ⟨_, _, ?run, ?_, ?_, exec_final_streamContext hdst' ?err hz, ?_, ?_⟩
  case run =>
    rw [execAll_append (execAll_clone_absorbs b1 b2 hs hne hd hx), execAll_cons hfinal]
    rfl
  case err => simpa [State.afterClone] using hs
  all_goals simp

end Sys2Proof.Machine
end

section
/-! Proofs of the family 20_memory: the encoder inverted by the decoder, what reads and writes of the
register window do, and runs of issued commands (spec/20_memory.md R50 to R63). -/

namespace Sys2Proof.Machine

/-! ### The decoder inverts the encoder

Each field of a command word is read back from the parts `encode` puts together (R91). -/

section
variable {n a k : Nat}

theorem extractLsb'_atCtx_self (c : CtxIx) : (atCtx c).extractLsb' 24 4 = c := by
  revert c; decide

theorem extractLsb'_atCtx_below (c : CtxIx) (h : a + n ≤ 24) : (atCtx c).extractLsb' a n = 0#n :=
  extractLsb'_eq_of_getLsbD fun k hk => by
    have : a + k < 24 := by omega
    simp [atCtx, this]

theorem extractLsb'_atSrc_self (c : CtxIx) : (atSrc c).extractLsb' 20 4 = c := by
  revert c; decide

theorem extractLsb'_atSrc_ctx (c : CtxIx) : (atSrc c).extractLsb' 24 4 = 0#4 := by
  revert c; decide

theorem extractLsb'_setWidth_self (b : BitVec n) (h : n ≤ 32) :
    (b.setWidth 32).extractLsb' 0 n = b :=
  extractLsb'_eq_of_getLsbD fun k hk => by
    have : k < 32 := by omega
    simp [this]

theorem extractLsb'_setWidth_above (b : BitVec n) (h : n ≤ a) :
    (b.setWidth 32).extractLsb' a k = 0#k :=
  extractLsb'_eq_of_getLsbD fun j hj => by
    simp [BitVec.getLsbD_of_ge b (a + j) (by omega)]

end

/-- Every command encodes with its opcode and no reserved bit (R87, R88). -/
theorem encodesCleanly (i : Instr) : Laws.EncodesCleanly.Statement i := by
  cases i with
  | nop => exact Laws.EncodesCleanly.nop
  | init c wid => exact Laws.EncodesCleanly.init c wid
  | reset c => exact Laws.EncodesCleanly.reset c
  | absorb c b => exact Laws.EncodesCleanly.absorb c b
  | final c olen => exact Laws.EncodesCleanly.final c olen
  | clone d src => exact Laws.EncodesCleanly.clone d src
  | errack => exact Laws.EncodesCleanly.errack

/-- The decoder reads a command's operands back from its encoding. -/
theorem selectCommand_encode (i : Instr) : selectCommand (encode i) = some i := by
  obtain ⟨hop, -⟩ := encodesCleanly i
  unfold selectCommand
  rw [hop]
  cases i <;>
    simp [Laws.EncodesCleanly.opcode, encode, ctxField, srcField, dataField, widField, olenField,
      BitVec.extractLsb'_or, extractLsb'_atCtx_self, extractLsb'_atCtx_below,
      extractLsb'_atSrc_self, extractLsb'_atSrc_ctx, extractLsb'_setWidth_self,
      extractLsb'_setWidth_above]

theorem decode_encode (i : Instr) : decode (encode i) = .ok i := by
  obtain ⟨hop, hmask⟩ := encodesCleanly i
  exact decode_eq_ok_iff.mpr ⟨selectCommand_encode i, hop ▸ hmask⟩

/-! ### What each offset reads -/

theorem readWord_digestW (s : State) {k : Nat} (hk : k < 16) :
    s.readWord (0x100 + 4 * k) = s.digestW k := by
  have hix : (0x100 + 4 * k - 0x100) / 4 = k := by omega
  simp (disch := omega) only [State.readWord, if_neg, if_pos]
  rw [hix]

/-- CMD, the reserved offsets, those past the registers and the misaligned ones read 0 (R52, R53). -/
theorem readWord_of_no_register (s : State) {off : Nat}
    (h : off % 4 ≠ 0 ∨ off = 0x000 ∨ (0x00C ≤ off ∧ off < 0x010) ∨ (0x050 ≤ off ∧ off < 0x100) ∨
      0x140 ≤ off) : s.readWord off = 0 := by
  by_cases hbad : off % 4 ≠ 0
  · exact if_pos hbad
  · simp (disch := omega) only [State.readWord, if_neg]

/-- A read of the window takes its event from the queue and adds its word to the answers (R54, R55). -/
theorem step_read_replies {s : State} {off : Nat} {lanes : BitVec 4} {rest : List BusEvent}
    (hp : s.pending = .read (s.base + off) lanes :: rest) (h : off < 0x200) :
    step s = .next { s with pending := rest, replies := s.readWord off :: s.replies } :=
  step_read hp h

/-- Settles O30. -/
theorem readsFollowTheRegisterMap : Obligations.ReadsFollowTheRegisterMap := fun s =>
  ⟨readWord_of_no_register s (by omega), readWord_status s, readWord_errInfo s,
    readWord_of_no_register s (by omega), fun _ hi => readWord_ctxstat s hi,
    fun _ _ _ => readWord_of_no_register s (by omega), fun _ hk => readWord_digestW s hk,
    fun _ _ _ => readWord_of_no_register s (by omega),
    fun _ hoff => readWord_of_no_register s (.inl hoff)⟩

/-- Settles O37. -/
theorem digestWordsAreLittleEndian : Obligations.DigestWordsAreLittleEndian := by
  intro s k j hk hj
  rw [readWord_digestW s hk]
  refine extractLsb'_eq_of_getLsbD fun b hb => ?_
  have hbyte : (8 * j + b) / 8 = j := by omega
  have hbit : (8 * j + b) % 8 = b := by omega
  rw [getLsbD_digestW s k _ (by omega), hbyte, hbit]

/-- Settles O31: the second read sees the engine as the first one did. -/
theorem readsHaveNoSideEffects : Obligations.ReadsHaveNoSideEffects := by
  intro s off lanes lanes' rest hoff hp
  exact ⟨_, _, step_read_replies hp hoff, step_read_replies rfl hoff, rfl, rfl,
    fun h => readWord_of_no_register s (by omega)⟩

/-! ### What a write does -/

/-- The aligned full-word write to CMD delivers its word (R56). -/
theorem writeWord_cmd (v : Word) (s : State) : writeWord 0 0b1111#4 v s = executeCommand v s := rfl

/-- Any other write to the window raises E_BUS with the offset (R53, R54, R56). -/
theorem writeWord_of_not_cmd {off : Nat} {lanes : BitVec 4} (h : off ≠ 0 ∨ lanes ≠ 0b1111#4)
    (v : Word) (s : State) :
    writeWord off lanes v s = .next (raise .bus (BitVec.ofNat 32 off) s) := by
  rcases writeWord_cases (off := off) (lanes := lanes) (v := v) (s := s) rfl with
    ⟨-, hbus⟩ | ⟨hoff, hlanes, -⟩
  · exact hbus
  · exact absurd h (by simp [hoff, hlanes])

/-- Settles O32. -/
theorem writesOtherThanCommandsRaiseEBus : Obligations.WritesOtherThanCommandsRaiseEBus := by
  intro s off lanes v rest hoff hp
  rw [step_write hp hoff]
  refine ⟨?_, fun h => writeWord_of_not_cmd h v _⟩
  rintro rfl rfl
  exact writeWord_cmd v _

/-! ### Which events give a next state -/

theorem exists_command_eq_next (w : Word) (body : State → Except ErrCode State) (s : State) :
    ∃ t, command w body s = .next t := by
  rcases command_cases (w := w) (body := body) (s := s) rfl with
    ⟨-, ho⟩ | ⟨-, t, -, ho⟩ | ⟨-, e, -, ho⟩ <;> exact ⟨_, ho⟩

/-- Every command completes (R205). -/
theorem exists_exec_eq_next (i : Instr) (s : State) : ∃ t, exec i s = .next t := by
  cases i with
  | nop => exact ⟨s, rfl⟩
  | errack => exact ⟨acknowledge s, rfl⟩
  | init c wid => exact exists_command_eq_next _ (initBody c wid) s
  | reset c => exact exists_command_eq_next _ (resetBody c) s
  | absorb c b => exact exists_command_eq_next _ (absorbBody c b) s
  | final c olen => exact exists_command_eq_next _ (finalBody c olen) s
  | clone d src => exact exists_command_eq_next _ (cloneBody d src) s

theorem exists_executeCommand_eq_next (w : Word) (s : State) :
    ∃ t, executeCommand w s = .next t := by
  rcases executeCommand_cases (w := w) (s := s) rfl with ⟨i, -, hi⟩ | ⟨e, -, ho⟩
  · rw [← hi]; exact exists_exec_eq_next i s
  · exact ⟨_, ho⟩

theorem exists_writeWord_eq_next (off : Nat) (lanes : BitVec 4) (v : Word) (s : State) :
    ∃ t, writeWord off lanes v s = .next t := by
  rcases writeWord_cases (off := off) (lanes := lanes) (v := v) (s := s) rfl with
    ⟨-, ho⟩ | ⟨-, -, ho⟩
  · exact ⟨_, ho⟩
  · rw [ho]; exact exists_executeCommand_eq_next v s

/-- An event inside the window gives a next state (R205). -/
theorem exists_takeEvent_eq_next {e : BusEvent} {s : State} (h : inWindow s e) :
    ∃ t, takeEvent e s = .next t := by
  cases e with
  | hwReset => exact ⟨hardwareReset s, rfl⟩
  | read addr lanes =>
    have ho : s.offset? addr = some (addr - s.base) := if_pos h
    exact ⟨answerRead (addr - s.base) s, by simp only [takeEvent, ho]⟩
  | write addr lanes v =>
    have ho : s.offset? addr = some (addr - s.base) := if_pos h
    simp only [takeEvent, ho]
    exact exists_writeWord_eq_next _ lanes v s

/-- An event outside the window is refused (R51, U8). -/
theorem takeEvent_of_not_inWindow {e : BusEvent} {s : State} (h : ¬ inWindow s e) :
    takeEvent e s = .refused .outsideWindow := by
  cases e with
  | hwReset => exact absurd trivial h
  | read addr lanes =>
    have ho : s.offset? addr = none := if_neg h
    simp only [takeEvent, ho]
  | write addr lanes v =>
    have ho : s.offset? addr = none := if_neg h
    simp only [takeEvent, ho]

/-- Settles O33: taking an event from the queue does not move the window. -/
theorem stepGoesOnInsideTheWindow : Obligations.StepGoesOnInsideTheWindow := by
  intro s
  refine ⟨step_of_idle, fun h => ?_, fun e rest hp hout => ?_⟩
  · cases hp : s.pending with
    | nil => exact ⟨s, step_of_idle hp⟩
    | cons e rest =>
      have hin : inWindow { s with pending := rest } e := by
        have := h e rest hp
        cases e <;> exact this
      rw [step_of_event hp]
      exact exists_takeEvent_eq_next hin
  · rw [step_of_event hp]
    refine takeEvent_of_not_inWindow fun hin => hout ?_
    cases e <;> exact hin

/-! ### Command words in the queue -/

theorem executeCommand_of_decode {w : Word} {i : Instr} (h : decode w = .ok i) (s : State) :
    executeCommand w s = exec i s := by simp only [executeCommand, h]

/-- A step whose next event is the write of a command word executes that word (R56, R62). -/
theorem step_cmdWrite {s : State} {w : Word} {rest : List BusEvent}
    (hp : s.pending = cmdWrite s w :: rest) :
    step s = executeCommand w { s with pending := rest } := by
  rw [step_of_event hp]
  exact takeEvent_cmdWrite s _ w rfl

/-- Settles O10. -/
theorem stepRunsTheDecodedCommand : Obligations.StepRunsTheDecodedCommand := by
  refine ⟨fun s w i rest hp hi => ?_, fun s w i hi => ?_⟩
  · rw [step_cmdWrite hp, executeCommand_of_decode hi]
  · have hp : (s.withFetchWord 32 w).pending =
        cmdWrite (s.withFetchWord 32 w) (BitVec.ofNat 32 w) :: s.pending := by
      rw [withFetchWord_pending, ofNat_mod_two_pow]
      rfl
    rw [step_cmdWrite hp, executeCommand_of_decode hi]
    rfl

/-- The step that takes the first of the issued commands leaves the others issued: a command moves
neither BASE nor the queue. -/
theorem step_issue_cons {s t : State} {i : Instr} (hs : s.pending = []) (h : exec i s = .next t)
    (ws : List Word) : step (s.issue (encode i :: ws)) = .next (t.issue ws) := by
  obtain ⟨hbase, hpending, -⟩ := (did_of_exec h).touches.sameBus
  have hp : (s.issue (encode i :: ws)).pending =
      cmdWrite (s.issue (encode i :: ws)) (encode i) :: ws.map (cmdWrite s) := by
    rw [State.issue, hs]
    rfl
  have hrest : t.issue ws = { t with pending := ws.map (cmdWrite s) } := by
    have hwrite : cmdWrite t = cmdWrite s := by
      funext w
      rw [cmdWrite, cmdWrite, State.base, State.base, hbase]
    rw [State.issue, hpending, hs, hwrite, List.nil_append]
  rw [step_cmdWrite hp, executeCommand_of_decode (decode_encode i), hrest]
  exact (exec_pending (ws.map (cmdWrite s)) h :)

/-- Settles O11, by induction on the list of commands. -/
theorem issuedCommandsRunInOrder : Obligations.IssuedCommandsRunInOrder := by
  intro s is hs
  induction is generalizing s with
  | nil =>
    have hissue : s.issue [] = s := by rw [State.issue, List.map_nil, List.append_nil]
    exact congrArg _ hissue
  | cons i is ih =>
    obtain ⟨t, ht⟩ := exists_exec_eq_next i s
    obtain ⟨-, hpending, -⟩ := (did_of_exec ht).touches.sameBus
    rw [List.map_cons, List.length_cons, run_succ_of_step _ (step_issue_cons hs ht _),
      execAll_cons ht, ih t (hpending.trans hs)]

end Sys2Proof.Machine
end

section
/-! Proofs of the family 30_encoding: a command word is determined by its opcode, its operand fields
and its zero reserved bits; the words that are no command; the commands of a hash; the assembler
(spec/30_encoding.md R80 to R93). -/

namespace Sys2Proof.Machine

/-- Settles O5: the encoding has the command's opcode and no reserved bit, and each operand is read
back from its place. -/
theorem decodeOfEncodeIsTheCommand : Obligations.DecodeOfEncodeIsTheCommand := decode_encode

/-- Settles O4: the decoder runs on the seven words. -/
theorem wordsOfTheOpcodeTableDecode : Obligations.WordsOfTheOpcodeTableDecode := by
  unfold Obligations.WordsOfTheOpcodeTableDecode
  decide

/-! ### Two words with the same fields are equal

Words are compared from the opcode down, one field at a time: `u >>> a = v >>> a` says that they
agree from bit `a` up. -/

section
variable {u v m : Word} {a n : Nat}

theorem ushiftRight_eq_of_field (h : u >>> (a + n) = v >>> (a + n))
    (hf : u.extractLsb' a n = v.extractLsb' a n) : u >>> a = v >>> a := by
  apply BitVec.eq_of_getLsbD_eq
  intro k _
  rw [BitVec.getLsbD_ushiftRight, BitVec.getLsbD_ushiftRight]
  by_cases hk : k < n
  · simpa [hk] using congrArg (fun f => f.getLsbD k) hf
  · have hix : a + n + (k - n) = a + k := by omega
    simpa [hix] using congrArg (fun w => w.getLsbD (k - n)) h

theorem eq_of_low_field (h : u >>> n = v >>> n) (hf : u.extractLsb' 0 n = v.extractLsb' 0 n) :
    u = v := by
  simpa using ushiftRight_eq_of_field (a := 0) (by rwa [Nat.zero_add]) hf

/-- A field that lies in a mask is 0 in every word without a bit of the mask (R87). -/
theorem extractLsb'_eq_zero_of_mask (hm : m.extractLsb' a n = BitVec.allOnes n)
    (hu : u &&& m = 0) : u.extractLsb' a n = 0 := by
  rw [← BitVec.and_allOnes (x := u.extractLsb' a n), ← hm, ← BitVec.extractLsb'_and, hu]
  simp

theorem reserved_field_eq (hm : m.extractLsb' a n = BitVec.allOnes n) (hu : u &&& m = 0)
    (hv : v &&& m = 0) : u.extractLsb' a n = v.extractLsb' a n := by
  rw [extractLsb'_eq_zero_of_mask hm hu, extractLsb'_eq_zero_of_mask hm hv]

theorem opField_of_selectCommand {i : Instr} (h : selectCommand u = some i) :
    opField u = Laws.EncodesCleanly.opcode i := by
  unfold selectCommand at h
  split at h <;> cases h
  all_goals exact BitVec.eq_of_toNat_eq ‹_›

/-- Two words never decode to the same command: bit for bit, a word is its opcode, its operands and
reserved bits (R87, R91). -/
theorem eq_of_decode_eq {i : Instr} (hu : decode u = .ok i) (hv : decode v = .ok i) : u = v := by
  obtain ⟨hsu, hmu⟩ := decode_eq_ok_iff.mp hu
  obtain ⟨hsv, hmv⟩ := decode_eq_ok_iff.mp hv
  have hopu := opField_of_selectCommand hsu
  have hopv := opField_of_selectCommand hsv
  have hop : u >>> 28 = v >>> 28 :=
    ushiftRight_eq_of_field (n := 4)
      ((BitVec.ushiftRight_eq_zero le_rfl).trans (BitVec.ushiftRight_eq_zero le_rfl).symm)
      (hopu.trans hopv.symm)
  have hsel := hsu.trans hsv.symm
  rw [selectCommand, selectCommand, hopu, hopv] at hsel
  rw [hopu] at hmu
  rw [hopv] at hmv
  cases i with
  | nop => exact eq_of_low_field hop (reserved_field_eq (m := 0x0FFFFFFF) (by decide) hmu hmv)
  | errack => exact eq_of_low_field hop (reserved_field_eq (m := 0x0FFFFFFF) (by decide) hmu hmv)
  | init c wid =>
    obtain ⟨hctx, hwid⟩ := Instr.init.inj (Option.some.inj hsel)
    have h24 := ushiftRight_eq_of_field (n := 4) hop hctx
    have h2 := ushiftRight_eq_of_field (n := 22) h24
      (reserved_field_eq (m := 0x00FFFFFC) (by decide) hmu hmv)
    exact eq_of_low_field h2 hwid
  | reset c =>
    have h24 := ushiftRight_eq_of_field (n := 4) hop (Instr.reset.inj (Option.some.inj hsel))
    exact eq_of_low_field h24 (reserved_field_eq (m := 0x00FFFFFF) (by decide) hmu hmv)
  | absorb c b =>
    obtain ⟨hctx, hdata⟩ := Instr.absorb.inj (Option.some.inj hsel)
    have h24 := ushiftRight_eq_of_field (n := 4) hop hctx
    have h8 := ushiftRight_eq_of_field (n := 16) h24
      (reserved_field_eq (m := 0x00FFFF00) (by decide) hmu hmv)
    exact eq_of_low_field h8 hdata
  | final c olen =>
    obtain ⟨hctx, holen⟩ := Instr.final.inj (Option.some.inj hsel)
    have h24 := ushiftRight_eq_of_field (n := 4) hop hctx
    have h7 := ushiftRight_eq_of_field (n := 17) h24
      (reserved_field_eq (m := 0x00FFFF80) (by decide) hmu hmv)
    exact eq_of_low_field h7 holen
  | clone d src =>
    obtain ⟨hctx, hsrc⟩ := Instr.clone.inj (Option.some.inj hsel)
    have h24 := ushiftRight_eq_of_field (n := 4) hop hctx
    have h20 := ushiftRight_eq_of_field (n := 4) h24 hsrc
    exact eq_of_low_field h20 (reserved_field_eq (m := 0x000FFFFF) (by decide) hmu hmv)

end

/-- A word that decodes is the encoding of its command (R91). -/
theorem encode_of_decode {w : Word} {i : Instr} (h : decode w = .ok i) : encode i = w :=
  eq_of_decode_eq (decode_encode i) h

/-- Settles O6: the word and the encoding decode to the same command. -/
theorem decodedWordIsTheEncoding : Obligations.DecodedWordIsTheEncoding :=
  fun _ _ => encode_of_decode

/-! ### Words that are no command -/

/-- A word that is no command raises its error and executes nothing (R87, R89, R202). -/
theorem rejects_of_decode_error {w : Word} {s : State} {e : DecodeError} (hs : s.err = .none)
    (h : decode w = .error e) : rejects w (decodeErrorCode e) s := by
  rw [rejects, executeCommand, h, ← raise_of_none s hs]

/-- Settles O7: each case names a defined opcode and a bit of its reserved mask. -/
theorem reservedBitsRaiseERsvd : Obligations.ReservedBitsRaiseERsvd := by
  intro w s hs h
  refine rejects_of_decode_error (e := .reservedBits) hs (decode_reservedBits_iff.mpr ?_)
  rcases h with h | h | h | h | h | h | h
  all_goals
    obtain ⟨hop, hmask⟩ := h
    rw [hop]
    exact ⟨by decide, hmask⟩

/-- Settles O8, by what the decoder answers. -/
theorem everyWordIsACommandOrRaises : Obligations.EveryWordIsACommandOrRaises := by
  intro w s hs
  refine ⟨fun hop => ?_, fun hop => ?_, ?_⟩
  · exact rejects_of_decode_error hs (decode_illegalOpcode_iff.mpr hop)
  · cases hd : decode w with
    | ok i => exact .inr ⟨i, encode_of_decode hd, executeCommand_of_decode hd s⟩
    | error e =>
      cases e with
      | reservedBits => exact .inl (rejects_of_decode_error hs hd)
      | illegalOpcode => exact absurd (decode_illegalOpcode_iff.mp hd) (by omega)
  · exact executeCommand_of_decode (decode_encode .nop) s

/-! ### The commands of a hash -/

theorem deliver_putCtx (s : State) (c d : CtxIx) (x : Context) (w : Width) (o : List Byte) :
    (s.putCtx c x).deliver d w o = (s.deliver d w o).putCtx c x := by
  unfold State.deliver State.putCtx
  rfl

/-- A fresh context has absorbed the empty stream since its reset (R160, R173). -/
theorem fresh_eq_streamContext (x : Context) : x.fresh = streamContext x.wid [] := by
  simp [Context.fresh, streamContext, fullBlocks, remainder, chainAfter, checksumOf, be64, zero64]

theorem exec_init {s : State} {c : CtxIx} {wid : BitVec 2} {w : Width} (hs : s.err = .none)
    (hc : c.toNat < s.nctx) (hw : widthOperand wid = .ok w) :
    exec (.init c wid) s = .next (s.putCtx c (streamContext w [])) := by
  have hx : s.ctxs[c.toNat]? = some s.ctxs[c.toNat] := List.getElem?_eq_getElem hc
  have hbody := initBody_ok_iff.mpr ⟨_, w, hx, hw, rfl⟩
  rw [fresh_eq_streamContext] at hbody
  exact command_of_ok hs hbody

/-- INIT, one ABSORB per byte and FINAL deliver the one-shot digest and leave the context fresh. -/
theorem execAll_hashCommands {s : State} {c : CtxIx} {wid : BitVec 2} {olen : BitVec 7} {w : Width}
    (hs : s.err = .none) (hc : c.toNat < s.nctx) (hw : widthOperand wid = .ok w)
    (hz : olen.toNat = w.digestBytes) (msg : List Byte) :
    execAll (hashCommands c wid olen msg) s =
      .next ((s.deliver c w (oneShotDigest w msg)).putCtx c (streamContext w [])) := by
  have hinit : execAll [.init c wid] s = .next (s.putCtx c (streamContext w [])) :=
    execAll_cons (exec_init hs hc hw) []
  have habsorb := execAll_absorbCommands (putCtx_getElem?_self s c (streamContext w []) hc) hs msg
  rw [putCtx_putCtx, List.nil_append] at habsorb
  have hfinal := exec_final_streamContext (putCtx_getElem?_self s c (streamContext w msg) hc) hs hz
  rw [deliver_putCtx, putCtx_putCtx, fresh_eq_streamContext] at hfinal
  rw [hashCommands, List.append_assoc, execAll_append hinit, execAll_append habsorb,
    execAll_cons hfinal]
  rfl

/-- Settles O51: what the run of the hash commands leaves, read field by field. -/
theorem hashCommandsGiveTheOneShotDigest : Obligations.HashCommandsGiveTheOneShotDigest := by
  intro s c w wid olen msg hs hc hwidth
  have hw : widthOperand wid = .ok w :=
    widthOperand_ok_iff.mpr
      (hwidth.imp (fun ⟨hcode, _, hw⟩ => ⟨hcode, hw⟩) fun ⟨hcode, _, hw⟩ => ⟨hcode, hw⟩)
  have hz : olen.toNat = w.digestBytes := by
    rcases hwidth with ⟨-, rfl, rfl⟩ | ⟨-, rfl, rfl⟩ <;> rfl
  refine ⟨_, execAll_hashCommands hs hc hw hz msg, ?_, ?_, ?_, ?_, ?context,
    ⟨?_, fun j hj => ?others⟩, ?_, ?_⟩
  case context => exact putCtx_getElem?_self _ c _ hc
  case others => rw [putCtx_getElem?_other _ _ _ hj, deliver_ctxs]
  all_goals simp [sameError, sameBus]

/-! ### The assembler -/

/-- Words that are the encodings of commands with a legal width. -/
def legalCommands (ws : List Word) : Prop :=
  ∃ is : List Instr, ws = is.map encode ∧ ∀ i ∈ is, i.widthLegal = true

theorem legalCommands_singleton {i : Instr} (h : i.widthLegal = true) :
    legalCommands [encode i] := ⟨[i], rfl, by simpa using h⟩

theorem widthLegal_init {c : CtxIx} {v : Nat} {wid : BitVec 2} (h : asmWidth v = some wid) :
    (Instr.init c wid).widthLegal = true := by
  unfold asmWidth at h
  split_ifs at h <;> cases h <;> rfl

theorem widthLegal_absorbCommands (c : CtxIx) (data : List Byte) :
    ∀ i ∈ absorbCommands c data, i.widthLegal = true := by
  simp [absorbCommands, Instr.widthLegal]

theorem widthLegal_hashCommands {c : CtxIx} {v : Nat} {wid : BitVec 2} (h : asmWidth v = some wid)
    (olen : BitVec 7) (data : List Byte) :
    ∀ i ∈ hashCommands c wid olen data, i.widthLegal = true := by
  intro i hi
  rw [hashCommands, List.append_assoc, List.singleton_append, List.mem_cons, List.mem_append,
    List.mem_singleton] at hi
  rcases hi with rfl | hi | rfl
  · exact widthLegal_init h
  · exact widthLegal_absorbCommands c data i hi
  · rfl

/-- Every line but a raw word is refused or stands for commands with legal widths (R92, R93). -/
theorem legalCommands_of_assemble {l : AsmLine} {ws : List Word} (h : assemble l = some ws)
    (hl : ∀ v, l ≠ .word v) : legalCommands ws := by
  cases l with simp only [assemble, bind, Option.bind_eq_some_iff, pure, Option.some.injEq] at h
  | nop => subst h; exact legalCommands_singleton rfl
  | errack => subst h; exact legalCommands_singleton rfl
  | init c v =>
    obtain ⟨cx, -, wid, hwid, rfl⟩ := h
    exact legalCommands_singleton (widthLegal_init hwid)
  | reset c => obtain ⟨cx, -, rfl⟩ := h; exact legalCommands_singleton rfl
  | absorb c b => obtain ⟨cx, -, y, -, rfl⟩ := h; exact legalCommands_singleton rfl
  | final c olen => obtain ⟨cx, -, n, -, rfl⟩ := h; exact legalCommands_singleton rfl
  | clone d src => obtain ⟨dx, -, sx, -, rfl⟩ := h; exact legalCommands_singleton rfl
  | word v => exact absurd rfl (hl v)
  | absorbs c data =>
    obtain ⟨cx, -, rfl⟩ := h
    exact ⟨_, rfl, widthLegal_absorbCommands cx data⟩
  | hash c v data =>
    obtain ⟨cx, -, wid, hwid, n, -, rfl⟩ := h
    exact ⟨_, rfl, widthLegal_hashCommands hwid n data⟩

theorem fits_toNat {n : Nat} (b : BitVec n) : fits n b.toNat = some b := by
  rw [fits, if_pos b.isLt, BitVec.ofNat_toNat, BitVec.setWidth_eq]

theorem assemble_absorbs (c : CtxIx) (data : List Byte) :
    assemble (.absorbs c.toNat data) = some ((absorbCommands c data).map encode) := by
  rw [assemble, fits_toNat]
  rfl

theorem assemble_init {c : CtxIx} {v : Nat} {wid : BitVec 2} (h : asmWidth v = some wid) :
    assemble (.init c.toNat v) = some [encode (.init c wid)] := by
  rw [assemble, fits_toNat, h]
  rfl

theorem assemble_final {c : CtxIx} {v : Nat} {olen : BitVec 7} (h : fits 7 v = some olen) :
    assemble (.final c.toNat v) = some [encode (.final c olen)] := by
  rw [assemble, fits_toNat, h]
  rfl

theorem assemble_hash {c : CtxIx} {v : Nat} {wid : BitVec 2} {olen : BitVec 7}
    (hw : asmWidth v = some wid) (hz : fits 7 (v / 8) = some olen) (data : List Byte) :
    assemble (.hash c.toNat v data) = some ((hashCommands c wid olen data).map encode) := by
  rw [assemble, fits_toNat, hw, hz]
  rfl

/-- The widths the assembler accepts have a width code, and a digest length that fits FINAL. -/
theorem asmWidth_and_digestLength {v : Nat} (h : v = 256 ∨ v = 512) :
    ∃ wid olen, asmWidth v = some wid ∧ fits 7 (v / 8) = some olen := by
  rcases h with rfl | rfl
  · exact ⟨1, 32, rfl, rfl⟩
  · exact ⟨2, 64, rfl, rfl⟩

/-- Settles O59, by the lines the assembler accepts. -/
theorem assemblerWritesCommands : Obligations.AssemblerWritesCommands := by
  refine ⟨fun l ws => legalCommands_of_assemble, fun c data => ?_, fun c v data hv => ?_⟩
  · rw [assemble_absorbs, absorbCommands, List.map_map]
    rfl
  · obtain ⟨wid, olen, hw, hz⟩ := asmWidth_and_digestLength hv
    refine ⟨_, _, _, assemble_init hw, assemble_absorbs c data, assemble_final hz, ?_⟩
    rw [assemble_hash hw hz, hashCommands, List.map_append, List.map_append]
    rfl

end Sys2Proof.Machine
end

section
/-! Proofs of the family 40_block_primitives: the five block primitives byte by byte and word by
word, and why each step of LPS can be undone (spec/40_block_primitives.md R110 to R115,
spec/41_constant_tables.md R130 to R132). -/

namespace Sys2Proof.Machine

/-! ### Addition and XOR -/

/-- Settles O40: add512 is the addition of 512-bit words, and the carries of the examples are
computed. -/
theorem additionIsModulo512Bits : Obligations.AdditionIsModulo512Bits := by
  refine ⟨fun a b => ?sum, fun a b c => ⟨BitVec.add_comm a b, BitVec.add_assoc a b c,
    BitVec.add_zero a⟩, ?allOnes, ⟨?carry, ?byte55⟩, ?double, ?byte62⟩
  case sum => rw [add512, BitVec.toNat_add]
  case carry => exact add512_be64 (2 ^ 64 - 1) 1
  case double => exact add512_be64 512 512
  all_goals decide +kernel

/-- Settles O41. -/
theorem xorCombineIsByteWise : Obligations.XorCombineIsByteWise :=
  fun a b c => ⟨fun i _ => byte_xorCombine a b i, BitVec.xor_self, BitVec.xor_zero,
    BitVec.xor_comm a b, BitVec.xor_assoc a b c⟩

/-! ### Substitution

SBOX takes no value twice, and the bytes of a block are substituted each by itself, so `substitute`
is injective; the blocks are finite in number, so it is a bijection. -/

/-- An injective function on words of one width is a bijection: the words are finite in number. -/
theorem bijective_of_injective {n : Nat} {f : BitVec n → BitVec n} (h : Function.Injective f) :
    Function.Bijective f :=
  haveI : Finite (BitVec n) := Finite.of_injective BitVec.toFin fun _ _ => BitVec.eq_of_toFin_eq
  Finite.injective_iff_bijective.mp h

/-- The rows of the inverse of SBOX, laid out as `sboxRows`. That it is the inverse is
`unsbox_sbox`. -/
def inverseSboxRows : List (BitVec 128) :=
  [0xa52d328f0e3038c054e69e39557e5291#128,
   0x6403575a1c6007182172a8d129c6a43f#128,
   0xe0278d0c82eaaeb49a6349e542e415b7#128,
   0xc806709d417519c9aafc4dbf2a7384d5#128,
   0xc3af2b86a7b1b25b46d39ffdd40f9c2f#128,
   0x9b43efd979b6537fc1f023e7255eb51e#128,
   0xa2dfa6feac22f9e24abc35caee78056b#128,
   0x51e159a3f27156116a8994658cbb773c#128,
   0x7b28abd231dec45fcccf762cb8d82e36#128,
   0xdb69b31495be62a13b1666e95c6c6dad#128,
   0x37614bb9e3baf1a08583da47c5b033fa#128,
   0x966f6ec2f650ff5da98e171b977dec58#128,
   0xf71ffb7c090d7a674587dce84f1d4e04#128,
   0xebf8f33e3dbd8a88ddcd0b1398029380#128,
   0x90d02434cbedf4ce99104440923a0126#128,
   0x121a4868f5818bc7d6200a08004cd774#128]

/-- `sbox` undone. -/
def unsbox (y : Byte) : Byte :=
  (inverseSboxRows.getD (y.toNat / 16) 0).extractLsb' (8 * (15 - y.toNat % 16)) 8

/-- The two tables undo each other, entry by entry. -/
theorem unsbox_sbox : ∀ x : Byte, unsbox (sbox x) = x := by decide +kernel

theorem sbox_injective : Function.Injective sbox :=
  Function.LeftInverse.injective unsbox_sbox

theorem byte_substitute (b : Bytes64) {i : Nat} (hi : i < 64) :
    byte (substitute b) i = sbox (byte b i) :=
  byte_ofBytes _ i hi

theorem substitute_injective : Function.Injective substitute := by
  intro a b h
  apply eq_of_byte_eq
  intro i hi
  apply sbox_injective
  rw [← byte_substitute a hi, ← byte_substitute b hi, h]

theorem byte_zero (i : Nat) : byte 0 i = 0 := by simp [byte]

/-- Settles O42: byte by byte, from the table. -/
theorem substituteIsABijection : Obligations.SubstituteIsABijection := by
  refine ⟨fun b i => byte_substitute b, bijective_of_injective substitute_injective,
    fun i hi => ⟨?_, ?_⟩⟩
  · rw [byte_substitute 0 hi, byte_zero]
    decide
  · rw [byte_substitute _ hi, byte_ofBytes _ i hi]
    decide

/-! ### Permutation -/

theorem tau_lt {i : Nat} (hi : i < 64) : tau i < 64 := by
  unfold tau
  omega

/-- TAU transposes an 8 by 8 matrix of bytes (R131). -/
theorem tau_tau {i : Nat} (hi : i < 64) : tau (tau i) = i := by
  unfold tau
  omega

theorem byte_permute (b : Bytes64) {i : Nat} (hi : i < 64) :
    byte (permute b) i = byte b (tau i) :=
  byte_ofBytes _ i hi

theorem permute_involutive : Function.Involutive permute := by
  intro b
  apply eq_of_byte_eq
  intro i hi
  rw [byte_permute _ hi, byte_permute b (tau_lt hi), tau_tau hi]

/-- Settles O43. -/
theorem permuteIsAnInvolution : Obligations.PermuteIsAnInvolution :=
  ⟨fun b _ => byte_permute b, permute_involutive⟩

/-! ### The accumulator loop

`xorRows rs v` is the product of the bit vector `v` and the matrix with the rows `rs`. -/

/-- The loop over the rows, as a fold over their numbers, the first row for the highest bit. -/
theorem xorRows_eq_foldl (rs : List Dword) (v acc : Dword) :
    xorRows rs v acc = (List.range rs.length).foldl
      (fun acc j => if v.getLsbD (rs.length - 1 - j) then acc ^^^ rs.getD j 0 else acc) acc := by
  induction rs generalizing acc with
  | nil => rfl
  | cons r rs ih =>
    rw [xorRows, ih, List.length_cons, List.range_succ_eq_map, List.foldl_cons, List.foldl_map]
    simp only [Nat.add_sub_cancel, Nat.sub_zero, Nat.sub_sub, Nat.add_comm 1,
      List.getD_cons_zero, List.getD_cons_succ, Nat.succ_eq_add_one, Bool.cond_eq_ite]

/-- One round of the loop is linear in the bit and the accumulator together. -/
theorem cond_xor_xor (c d : Bool) (a b r : Dword) :
    (bif c ^^ d then a ^^^ b ^^^ r else a ^^^ b) =
      (bif c then a ^^^ r else a) ^^^ (bif d then b ^^^ r else b) := by
  cases c <;> cases d
  case false.false => rfl
  case false.true => exact BitVec.xor_assoc a b r
  case true.false =>
    rw [Bool.xor_false, cond_true, cond_true, cond_false]
    ac_rfl
  case true.true =>
    calc a ^^^ b = a ^^^ b ^^^ (r ^^^ r) := by rw [BitVec.xor_self, BitVec.xor_zero]
      _ = a ^^^ r ^^^ (b ^^^ r) := by ac_rfl

/-- The loop is linear in the bits and the accumulator together. -/
theorem xorRows_xor (rs : List Dword) (u v a b : Dword) :
    xorRows rs (u ^^^ v) (a ^^^ b) = xorRows rs u a ^^^ xorRows rs v b := by
  induction rs generalizing a b with
  | nil => rfl
  | cons r rs ih =>
    rw [xorRows, xorRows, xorRows, ← ih, BitVec.getLsbD_xor, cond_xor_xor]

theorem getLsbD_twoPow_of_ne {n i : Nat} (h : n ≠ i) :
    (BitVec.twoPow 64 n).getLsbD i = false := by
  rw [BitVec.getLsbD_twoPow, decide_eq_false h, Bool.and_false]

/-- Rows whose bits are clear add nothing. -/
theorem xorRows_of_bits_clear {rs : List Dword} {v : Dword}
    (h : ∀ i < rs.length, v.getLsbD i = false) (acc : Dword) : xorRows rs v acc = acc := by
  induction rs with
  | nil => rfl
  | cons r rs ih =>
    rw [xorRows, h rs.length (Nat.lt_succ_self _)]
    exact ih fun i hi => h i (Nat.lt_succ_of_lt hi)

/-- A single set bit picks its row. -/
theorem xorRows_twoPow {rs : List Dword} {j : Nat} (hj : j < rs.length) (hrs : rs.length ≤ 64) :
    xorRows rs (BitVec.twoPow 64 (rs.length - 1 - j)) 0 = rs.getD j 0 := by
  induction rs generalizing j with
  | nil => cases hj
  | cons r rs ih =>
    cases j with
    | zero =>
      have hbit : (BitVec.twoPow 64 rs.length).getLsbD rs.length = true := by
        simpa [BitVec.getLsbD_twoPow] using hrs
      have hclear : ∀ i < rs.length, (BitVec.twoPow 64 rs.length).getLsbD i = false :=
        fun i hi => getLsbD_twoPow_of_ne hi.ne'
      rw [List.length_cons, Nat.add_sub_cancel, Nat.sub_zero, xorRows, hbit, cond_true,
        xorRows_of_bits_clear hclear, List.getD_cons_zero]
      exact BitVec.zero_xor
    | succ j =>
      rw [List.length_cons] at hj
      have hpos : rs.length + 1 - 1 - (j + 1) = rs.length - 1 - j := by omega
      have hbit : (BitVec.twoPow 64 (rs.length - 1 - j)).getLsbD rs.length = false :=
        getLsbD_twoPow_of_ne (by omega)
      rw [List.length_cons, hpos, xorRows, hbit, cond_false, ih (Nat.lt_of_succ_lt_succ hj)
        (Nat.le_of_succ_le hrs), List.getD_cons_succ]

/-! ### The linear diffusion -/

theorem word64_linearDiffuse (b : Bytes64) {w : Nat} (hw : w < 8) :
    word64 (linearDiffuse b) w = diffuseWord (word64 b w) :=
  word64_ofWords _ w hw

theorem diffuseWord_xor (u v : Dword) :
    diffuseWord (u ^^^ v) = diffuseWord u ^^^ diffuseWord v :=
  xorRows_xor arows u v 0 0

theorem diffuseWord_zero : diffuseWord 0 = 0 :=
  xorRows_of_bits_clear (fun _ _ => BitVec.getLsbD_zero) 0

theorem diffuseWord_twoPow {j : Nat} (hj : j < 64) :
    diffuseWord (BitVec.twoPow 64 (63 - j)) = arow j :=
  xorRows_twoPow (rs := arows) hj (Nat.le_refl 64)

theorem word64_zero (w : Nat) : word64 0 w = 0 := by simp [word64]

theorem linearDiffuse_xorCombine (a b : Bytes64) :
    linearDiffuse (xorCombine a b) = xorCombine (linearDiffuse a) (linearDiffuse b) := by
  apply eq_of_word64_eq
  intro w hw
  rw [word64_xorCombine, word64_linearDiffuse _ hw, word64_linearDiffuse a hw,
    word64_linearDiffuse b hw, word64_xorCombine, diffuseWord_xor]

theorem linearDiffuse_zero : linearDiffuse 0 = 0 := by
  apply eq_of_word64_eq
  intro w hw
  rw [word64_linearDiffuse 0 hw, word64_zero, diffuseWord_zero]

/-- Settles O44: the loop word by word, and its linearity. -/
theorem linearDiffuseXorsTheRowsOfSetBits : Obligations.LinearDiffuseXorsTheRowsOfSetBits := by
  refine ⟨fun b w hw => ?fold, linearDiffuse_xorCombine, linearDiffuse_zero,
    fun b w j hw hj hb => ?bit⟩
  case fold =>
    rw [word64_linearDiffuse b hw]
    exact xorRows_eq_foldl arows (word64 b w) 0
  case bit => rw [word64_linearDiffuse b hw, hb, diffuseWord_twoPow hj]

/-! ### The inverse of the matrix -/

/-- A linear function may be applied to the rows and the accumulator first. -/
theorem xorRows_map {f : Dword → Dword} (hf : ∀ a b, f (a ^^^ b) = f a ^^^ f b)
    (rs : List Dword) (v acc : Dword) : xorRows (rs.map f) v (f acc) = f (xorRows rs v acc) := by
  induction rs generalizing acc with
  | nil => rfl
  | cons r rs ih =>
    rw [List.map_cons, xorRows, xorRows, List.length_map, ← ih]
    cases v.getLsbD rs.length
    · rfl
    · rw [cond_true, cond_true, hf]

/-- The rows of the unit matrix for the low `n` bits, the highest of them first. -/
def unitRows : Nat → List Dword
  | 0 => []
  | n + 1 => BitVec.twoPow 64 n :: unitRows n

theorem length_unitRows (n : Nat) : (unitRows n).length = n := by
  induction n with
  | zero => rfl
  | succ n ih => rw [unitRows, List.length_cons, ih]

/-- One round of the loop, bit by bit. -/
theorem getLsbD_cond_xor (c : Bool) (a r : Dword) (i : Nat) :
    (bif c then a ^^^ r else a).getLsbD i = (a.getLsbD i ^^ (c && r.getLsbD i)) := by
  cases c
  · rw [cond_false, Bool.false_and, Bool.xor_false]
  · rw [cond_true, BitVec.getLsbD_xor, Bool.true_and]

/-- The unit matrix gives back the low `n` bits of the word. -/
theorem getLsbD_xorRows_unitRows (n : Nat) (v acc : Dword) {i : Nat} (hi : i < 64) :
    (xorRows (unitRows n) v acc).getLsbD i =
      (acc.getLsbD i ^^ (decide (i < n) && v.getLsbD i)) := by
  induction n generalizing acc with
  | zero => simp [unitRows, xorRows]
  | succ n ih =>
    rw [unitRows, xorRows, length_unitRows, ih, getLsbD_cond_xor, BitVec.getLsbD_twoPow]
    by_cases hin : n = i
    · subst hin
      simp [hi]
    · have hlt : i < n + 1 ↔ i < n := by omega
      simp [hlt, hin]

theorem xorRows_unitRows (v : Dword) : xorRows (unitRows 64) v 0 = v := by
  apply BitVec.eq_of_getLsbD_eq
  intro i hi
  rw [getLsbD_xorRows_unitRows 64 v 0 hi]
  simp [hi]

/-- The rows of the inverse of the matrix of R132: row j is the word that `diffuseWord` takes to the
single bit 63 - j. That they are the inverse is `map_undiffuseWord_arows`. -/
def inverseRows : List Dword :=
  [0x62ab88cd0972e917#64, 0x31db44e88a39fa85#64, 0x96e3227445927dcc#64, 0x4bff113aac49b066#64] ++
  [0xabf1861d56aa5833#64, 0xdbf643802b552c97#64, 0xe37baf409ba416c5#64, 0xffb3d920c3520bec#64] ++
  [0x37ac80ec39310f5c#64, 0x955640769296892e#64, 0xc42b203b494bca17#64, 0x629b1093aaab6585#64] ++
  [0x31c308c755dbbccc#64, 0x96ef04eda4e35e66#64, 0x4bf902f852ff2f33#64, 0xabf2017c29f19997#64] ++
  [0x7ba7f6d2966a717c#64, 0xb3dd7b694b35b63e#64, 0xd7e0b3baab945b1f#64, 0xe570d75ddb4aa381#64] ++
  [0xfc38e5a0e325dfce#64, 0x7e1cfc50ff9ce167#64, 0x3f0e7e28f14efebd#64, 0x91073f14f6277fd0#64] ++
  [0x8f75c66271c4c510#64, 0xc9b46331b662ec08#64, 0xea5abf965b317604#64, 0x752dd14ba3963b02#64] ++
  [0xb498e6abdf4b9301#64, 0x5a4c73dbe1abc78e#64, 0x2d26b7e3fedbed47#64, 0x9813d5ff7fe3f8ad#64] ++
  [0xa27784688a48d4ef#64, 0x51b5423445246af9#64, 0xa6d4211aac1235f2#64, 0x536a9e0d56099479#64] ++
  [0xa7354f882b8a4ab2#64, 0xdd94a9449b452559#64, 0xe04ada22c3ac9ca2#64, 0x70256d11ef564e51#64] ++
  [0x38d6992f43439caa#64, 0x1c6bc299afaf4e55#64, 0x0ebb61c2d9d927a4#64, 0x07d3be61e2e29d52#64] ++
  [0x8de75fbe7171c029#64, 0xc8fda15fb6b6609a#64, 0x64f0dea15b5b304d#64, 0x32786fdea3a318a8#64] ++
  [0x7388fc7df56416b6#64, 0xb7447eb0f4320b5b#64, 0xd5223f587a198ba3#64, 0xe411912c3d82cbdf#64] ++
  [0x7286c6169041ebe1#64, 0x3943630b48aefbfe#64, 0x92afbf8b2457f37f#64, 0x49d9d1cb12a5f7b1#64] ++
  [0x321902ad3c69a5e9#64, 0x198201d81ebadcfa#64, 0x82418e6c0f5d6e7d#64, 0x41ae473689a037b0#64] ++
  [0xae57ad1bca509558#64, 0x57a5d8836528c42c#64, 0xa5dc6ccfbc146216#64, 0xdc6e36e95e0a310b#64]

/-- `diffuseWord` undone. -/
def undiffuseWord (v : Dword) : Dword := xorRows inverseRows v 0

theorem undiffuseWord_xor (u v : Dword) :
    undiffuseWord (u ^^^ v) = undiffuseWord u ^^^ undiffuseWord v :=
  xorRows_xor inverseRows u v 0 0

/-- The product of the two matrices is the unit matrix. -/
theorem map_undiffuseWord_arows : arows.map undiffuseWord = unitRows 64 := by decide +kernel

theorem undiffuseWord_diffuseWord : Function.LeftInverse undiffuseWord diffuseWord := by
  intro v
  calc undiffuseWord (diffuseWord v)
      = xorRows (arows.map undiffuseWord) v (undiffuseWord 0) :=
        (xorRows_map undiffuseWord_xor arows v 0).symm
    _ = xorRows (unitRows 64) v 0 := by rw [map_undiffuseWord_arows]; rfl
    _ = v := xorRows_unitRows v

theorem linearDiffuse_injective : Function.Injective linearDiffuse := by
  intro a b h
  apply eq_of_word64_eq
  intro w hw
  apply undiffuseWord_diffuseWord.injective
  rw [← word64_linearDiffuse a hw, ← word64_linearDiffuse b hw, h]

/-- Settles O45: each of the three steps is injective. -/
theorem lpsIsABijection : Obligations.LpsIsABijection :=
  bijective_of_injective
    (linearDiffuse_injective.comp (permute_involutive.injective.comp substitute_injective))

end Sys2Proof.Machine
end

section
/-! Proofs of the family 42_key_schedule_and_compression: the rounds of E one at a time
(spec/42_key_schedule_and_compression.md R140 to R143). -/

namespace Sys2Proof.Machine

/-- The loop of R142 stopped after its first `n` rounds: the pair (state, key) that `encrypt` reaches. -/
def encryptRounds (k0 m : Bytes64) (n : Nat) : Bytes64 × Bytes64 :=
  (List.range n).foldl encryptRound (xorCombine m k0, k0)

theorem encryptRounds_zero (k0 m : Bytes64) : encryptRounds k0 m 0 = (xorCombine m k0, k0) := rfl

theorem encryptRounds_succ (k0 m : Bytes64) (n : Nat) :
    encryptRounds k0 m (n + 1) = encryptRound (encryptRounds k0 m n) n := by
  unfold encryptRounds
  rw [List.range_succ, List.foldl_concat]

theorem encrypt_eq_encryptRounds (k0 m : Bytes64) :
    encrypt k0 m = (encryptRounds k0 m Config.rounds).1 := rfl

/-- Sequences that begin as the loop of R142 does and follow R140 and R142 for `n` rounds are the
states and keys of the loop up to there. -/
theorem encryptRounds_eq_of_follows {k0 m : Bytes64} {st key : Nat → Bytes64} {n : Nat}
    (hst0 : st 0 = xorCombine m k0) (hkey0 : key 0 = k0)
    (hkey : ∀ i, i < n → key (i + 1) = lps (xorCombine (key i) (roundConstant i)))
    (hst : ∀ i, i < n → st (i + 1) = xorCombine (lps (st i)) (key (i + 1))) :
    encryptRounds k0 m n = (st n, key n) := by
  induction n with
  | zero => rw [encryptRounds_zero, hst0, hkey0]
  | succ n ih =>
    have before : encryptRounds k0 m n = (st n, key n) :=
      ih (fun i hi => hkey i (by omega)) (fun i hi => hst i (by omega))
    rw [encryptRounds_succ, before, encryptRound, nextKey, hst n (by omega), hkey n (by omega)]

/-- Settles O46: E by induction on the rounds; the equation for G is its definition (R143). -/
theorem encryptionRunsTwelveRounds : Obligations.EncryptionRunsTwelveRounds := by
  refine ⟨fun k0 m st key hst0 hkey0 hkey hst => ?rounds, fun n h m => ?compression⟩
  case rounds =>
    rw [encrypt_eq_encryptRounds, Config.rounds, encryptRounds_eq_of_follows hst0 hkey0 hkey hst]
  case compression => rw [compress]

end Sys2Proof.Machine
end

section
/-! Proofs of the family 43_engine_commands: the machine and the spec's pseudocode of a command word
agree, which also gives every rejection; then the effect of each accepted command, the final block
and the digest (spec/43_engine_commands.md R160 to R175). -/

namespace Sys2Proof.Machine

/-! ### The fields of an encoded command (R81 to R91) -/

theorem opField_encode (i : Instr) : opField (encode i) = Laws.EncodesCleanly.opcode i :=
  (encodesCleanly i).1

theorem encode_and_reservedMask (i : Instr) :
    encode i &&& reservedMask (Laws.EncodesCleanly.opcode i) = 0 :=
  (encodesCleanly i).2

/-- A field that lies in the reserved mask of its opcode is 0 in the word of a command (R87). -/
theorem reserved_field_encode (i : Instr) (op : BitVec 4) {a n : Nat}
    (hop : Laws.EncodesCleanly.opcode i = op)
    (hm : (reservedMask op).extractLsb' a n = BitVec.allOnes n) :
    (encode i).extractLsb' a n = 0 :=
  extractLsb'_eq_zero_of_mask hm (hop ▸ encode_and_reservedMask i)

theorem operands_encode_init (c : CtxIx) (wid : BitVec 2) :
    ctxField (encode (.init c wid)) = c ∧ widField (encode (.init c wid)) = wid := by
  simpa [selectCommand, opField_encode, Laws.EncodesCleanly.opcode] using
    selectCommand_encode (.init c wid)

theorem operands_encode_reset (c : CtxIx) : ctxField (encode (.reset c)) = c := by
  simpa [selectCommand, opField_encode, Laws.EncodesCleanly.opcode] using
    selectCommand_encode (.reset c)

theorem operands_encode_absorb (c : CtxIx) (b : Byte) :
    ctxField (encode (.absorb c b)) = c ∧ dataField (encode (.absorb c b)) = b := by
  simpa [selectCommand, opField_encode, Laws.EncodesCleanly.opcode] using
    selectCommand_encode (.absorb c b)

theorem operands_encode_final (c : CtxIx) (olen : BitVec 7) :
    ctxField (encode (.final c olen)) = c ∧ olenField (encode (.final c olen)) = olen := by
  simpa [selectCommand, opField_encode, Laws.EncodesCleanly.opcode] using
    selectCommand_encode (.final c olen)

theorem operands_encode_clone (d src : CtxIx) :
    ctxField (encode (.clone d src)) = d ∧ srcField (encode (.clone d src)) = src := by
  simpa [selectCommand, opField_encode, Laws.EncodesCleanly.opcode] using
    selectCommand_encode (.clone d src)

/-- Only ERRACK has the word that leaves the error state (R172, R203). -/
theorem encode_ne_errack {i : Instr} (hi : i ≠ .errack) : encode i ≠ 0x60000000#32 := by
  intro h
  have hd := decode_encode i
  rw [h] at hd
  exact hi (Except.ok.inj (hd.symm.trans (decode_encode .errack)))

/-! ### check, command by command (R201) -/

section
variable {s : State} {c : CtxIx} {x : Context}

theorem isUninit_iff (hx : s.ctxs[c.toNat]? = some x) : isUninit c s = true ↔ x.cst = .uninit := by
  simp [isUninit, hx]

theorem wrongSize_iff (hx : s.ctxs[c.toNat]? = some x) (olen : BitVec 7) :
    wrongSize c olen s = true ↔ olen.toNat ≠ if x.wid = .narrow then 32 else 64 := by
  simp [wrongSize, hx]

theorem not_nctx_le_of_getElem? (hx : s.ctxs[c.toNat]? = some x) : ¬ s.nctx ≤ c.toNat :=
  Nat.not_le.mpr (lt_nctx_of_getElem? hx)

end

section
variable (s : State)

theorem checkWord_init (c : CtxIx) (wid : BitVec 2) :
    checkWord (encode (.init c wid)) s =
      if s.nctx ≤ c.toNat then .ctx
      else if ¬(wid = 0b01#2 ∨ wid = 0b10#2) then .width else .none := by
  simp only [checkWord, opField_encode, encode_and_reservedMask, operands_encode_init]
  simp [Laws.EncodesCleanly.opcode]

theorem checkWord_reset (c : CtxIx) :
    checkWord (encode (.reset c)) s =
      if s.nctx ≤ c.toNat then .ctx else if isUninit c s then .uninit else .none := by
  simp only [checkWord, opField_encode, encode_and_reservedMask, operands_encode_reset]
  simp [Laws.EncodesCleanly.opcode]

theorem checkWord_absorb (c : CtxIx) (b : Byte) :
    checkWord (encode (.absorb c b)) s =
      if s.nctx ≤ c.toNat then .ctx else if isUninit c s then .uninit else .none := by
  simp only [checkWord, opField_encode, encode_and_reservedMask, operands_encode_absorb]
  simp [Laws.EncodesCleanly.opcode]

theorem checkWord_final (c : CtxIx) (olen : BitVec 7) :
    checkWord (encode (.final c olen)) s =
      if s.nctx ≤ c.toNat then .ctx else if isUninit c s then .uninit
      else if wrongSize c olen s then .size else .none := by
  simp only [checkWord, opField_encode, encode_and_reservedMask, operands_encode_final]
  simp [Laws.EncodesCleanly.opcode]

theorem checkWord_clone (d src : CtxIx) :
    checkWord (encode (.clone d src)) s =
      if s.nctx ≤ d.toNat then .ctx else if s.nctx ≤ src.toNat then .ctx
      else if isUninit src s then .uninit else .none := by
  simp only [checkWord, opField_encode, encode_and_reservedMask, operands_encode_clone]
  simp [Laws.EncodesCleanly.opcode]

theorem checkWord_of_decode_error {w : Word} {e : DecodeError} (h : decode w = .error e) :
    checkWord w s = decodeErrorCode e := by
  cases e with
  | illegalOpcode => exact if_pos (decode_illegalOpcode_iff.mp h)
  | reservedBits =>
    obtain ⟨hop, hmask⟩ := decode_reservedBits_iff.mp h
    rw [checkWord, if_neg (Nat.not_le.mpr hop), if_pos hmask]
    rfl

end

/-! ### The operand checks of the machine, as the code that check gives -/

/-- The error code of an answer, E_NONE for a value. -/
def errorOf {α : Type} : Except ErrCode α → ErrCode
  | .ok _ => .none
  | .error e => e

/-- An answer that is then always completed keeps its error. -/
theorem errorOf_bind_pure {α β : Type} (r : Except ErrCode α) (f : α → β) :
    errorOf (r >>= fun x => pure (f x)) = errorOf r := by cases r <;> rfl

theorem errorOf_widthOperand (wid : BitVec 2) :
    errorOf (widthOperand wid) = if ¬(wid = 0b01#2 ∨ wid = 0b10#2) then .width else .none := by
  revert wid; decide

section
variable (s : State) (c : CtxIx) {f : Context → Except ErrCode State} {e : ErrCode}

theorem errorOf_sizeOperand {x : Context} (hx : s.ctxs[c.toNat]? = some x) (olen : BitVec 7) :
    errorOf (sizeOperand olen x.wid) = if wrongSize c olen s then .size else .none := by
  rw [sizeOperand, wrongSize, hx, digestBytes_eq_ite]
  by_cases hz : olen.toNat = if x.wid = .narrow then 32 else 64 <;> simp [errorOf, hz]

/-- A body that begins with a context that must exist: E_CTX comes before what the rest finds. -/
theorem errorOf_ctxOperand_bind (hf : ∀ x, errorOf (f x) = e) :
    errorOf (ctxOperand c s >>= f) = if s.nctx ≤ c.toNat then .ctx else e := by
  cases h : ctxOperand c s with
  | error e' =>
    obtain ⟨hle, rfl⟩ := ctxOperand_error_iff.mp h
    exact (if_pos hle).symm
  | ok x =>
    rw [if_neg (not_nctx_le_of_getElem? (ctxOperand_ok_iff.mp h))]
    exact hf x

/-- A body that begins with a context that must be initialised: E_CTX, then E_UNINIT, then what the
rest finds. -/
theorem errorOf_liveOperand_bind (hf : ∀ x, s.ctxs[c.toNat]? = some x → errorOf (f x) = e) :
    errorOf (liveOperand c s >>= f) =
      if s.nctx ≤ c.toNat then .ctx else if isUninit c s then .uninit else e := by
  cases h : liveOperand c s with
  | error e' =>
    rcases liveOperand_error_iff.mp h with ⟨hle, rfl⟩ | ⟨x, hx, hu, rfl⟩
    · exact (if_pos hle).symm
    · rw [if_neg (not_nctx_le_of_getElem? hx), if_pos ((isUninit_iff hx).mpr hu)]
      rfl
  | ok x =>
    obtain ⟨hx, hu⟩ := liveOperand_ok_iff.mp h
    rw [if_neg (not_nctx_le_of_getElem? hx), if_neg (mt (isUninit_iff hx).mp hu)]
    exact hf x hx

theorem checkWord_eq_errorOf_initBody (wid : BitVec 2) :
    checkWord (encode (.init c wid)) s = errorOf (initBody c wid s) := by
  rw [checkWord_init, initBody, errorOf_ctxOperand_bind s c fun x => ?_]
  rw [errorOf_bind_pure, errorOf_widthOperand]

theorem checkWord_eq_errorOf_resetBody :
    checkWord (encode (.reset c)) s = errorOf (resetBody c s) := by
  rw [checkWord_reset, resetBody, errorOf_liveOperand_bind s c fun _ _ => ?_]
  rfl

theorem checkWord_eq_errorOf_absorbBody (b : Byte) :
    checkWord (encode (.absorb c b)) s = errorOf (absorbBody c b s) := by
  rw [checkWord_absorb, absorbBody, errorOf_liveOperand_bind s c fun _ _ => ?_]
  rfl

theorem checkWord_eq_errorOf_finalBody (olen : BitVec 7) :
    checkWord (encode (.final c olen)) s = errorOf (finalBody c olen s) := by
  rw [checkWord_final, finalBody, errorOf_liveOperand_bind s c fun x hx => ?_]
  rw [errorOf_bind_pure, errorOf_sizeOperand s c hx]

theorem checkWord_eq_errorOf_cloneBody (src : CtxIx) :
    checkWord (encode (.clone c src)) s = errorOf (cloneBody c src s) := by
  rw [checkWord_clone, cloneBody, errorOf_ctxOperand_bind s c fun _ => ?_]
  exact errorOf_liveOperand_bind s src fun _ _ => rfl

end

/-! ### The machine follows the pseudocode (R165, R203) -/

theorem specCommand_of_error {w : Word} {s : State} (hs : s.err ≠ .none)
    (hw : w ≠ 0x60000000#32) : specCommand w s = s := by
  rw [specCommand, if_pos hs, ackOrIgnore, if_neg hw]

theorem specCommand_of_check {w : Word} {s : State} {e : ErrCode} (hs : s.err = .none)
    (he : checkWord w s = e) (hne : e ≠ .none) :
    specCommand w s = { s with err := e, errInfo := w } := by
  subst he
  rw [specCommand, if_neg (not_not.mpr hs), if_pos hne, raise_of_none s hs]

theorem specCommand_of_accepted {w : Word} {s : State} (hs : s.err = .none)
    (hc : checkWord w s = .none) : specCommand w s = acceptedEffect w s := by
  rw [specCommand, if_neg (not_not.mpr hs), if_neg (not_not.mpr hc)]

/-- A command whose body makes the checks of check(w) and has the effect of R165 runs as the
pseudocode says. -/
theorem command_eq_specCommand {i : Instr} {body : State → Except ErrCode State} {s : State}
    (hi : i ≠ .errack) (hcheck : checkWord (encode i) s = errorOf (body s))
    (hne : ∀ e, body s = .error e → e ≠ .none)
    (heffect : ∀ t, body s = .ok t → acceptedEffect (encode i) s = t) :
    command (encode i) body s = .next (specCommand (encode i) s) := by
  rcases command_cases (w := encode i) (body := body) (s := s) rfl with
    ⟨hs, ho⟩ | ⟨hs, t, hb, ho⟩ | ⟨hs, e, hb, ho⟩ <;> rw [ho]
  · rw [specCommand_of_error hs (encode_ne_errack hi)]
  · rw [hb] at hcheck
    rw [specCommand_of_accepted hs hcheck, heffect t hb]
  · rw [hb] at hcheck
    rw [specCommand_of_check hs hcheck (hne e hb)]
    rfl

/-- Every command runs as the pseudocode of its word says. -/
theorem exec_eq_specCommand (i : Instr) (s : State) :
    exec i s = .next (specCommand (encode i) s) := by
  cases i with
  | nop =>
    by_cases hs : s.err = .none
    · rw [specCommand_of_accepted hs rfl]; rfl
    · rw [specCommand_of_error hs (encode_ne_errack (by simp))]; rfl
  | errack =>
    by_cases hs : s.err = .none
    · rw [specCommand_of_accepted hs rfl, exec, execErrack, acknowledge_of_none s hs]; rfl
    · rw [specCommand, if_pos hs, exec, execErrack, acknowledge_of_error s hs]; rfl
  | init c wid =>
    refine command_eq_specCommand (by simp) (checkWord_eq_errorOf_initBody s c wid)
      (fun _ h => (rejection_of_initBody h).ne_none) fun t h => ?_
    obtain ⟨x, w, hx, hw, rfl⟩ := initBody_ok_iff.mp h
    rcases widthOperand_ok_iff.mp hw with ⟨rfl, rfl⟩ | ⟨rfl, rfl⟩ <;>
      simp [acceptedEffect, opField_encode, Laws.EncodesCleanly.opcode, operands_encode_init,
        onContext, hx]
  | reset c =>
    refine command_eq_specCommand (by simp) (checkWord_eq_errorOf_resetBody s c)
      (fun _ h => (rejection_of_resetBody h).ne_none) fun t h => ?_
    obtain ⟨x, hx, -, rfl⟩ := resetBody_ok_iff.mp h
    simp [acceptedEffect, opField_encode, Laws.EncodesCleanly.opcode, operands_encode_reset,
      onContext, hx]
  | absorb c b =>
    refine command_eq_specCommand (by simp) (checkWord_eq_errorOf_absorbBody s c b)
      (fun _ h => (rejection_of_absorbBody h).ne_none) fun t h => ?_
    obtain ⟨x, hx, -, rfl⟩ := absorbBody_ok_iff.mp h
    simp [acceptedEffect, opField_encode, Laws.EncodesCleanly.opcode, operands_encode_absorb,
      onContext, hx]
  | final c olen =>
    refine command_eq_specCommand (by simp) (checkWord_eq_errorOf_finalBody s c olen)
      (fun _ h => (rejection_of_finalBody h).ne_none) fun t h => ?_
    obtain ⟨x, hx, -, -, rfl⟩ := finalBody_ok_iff.mp h
    simp [acceptedEffect, opField_encode, Laws.EncodesCleanly.opcode, operands_encode_final,
      onContext, hx]
  | clone d src =>
    refine command_eq_specCommand (by simp) (checkWord_eq_errorOf_cloneBody s d src)
      (fun _ h => (rejection_of_cloneBody h).ne_none) fun t h => ?_
    obtain ⟨x, -, hx, -, rfl⟩ := cloneBody_ok_iff.mp h
    simp [acceptedEffect, opField_encode, Laws.EncodesCleanly.opcode, operands_encode_clone, hx]

/-- Settles O9: a word is a command's encoding, or rejected by the first two lines of check. -/
theorem executionFollowsTheSpecsPseudocode : Obligations.ExecutionFollowsTheSpecsPseudocode := by
  intro w s
  cases hd : decode w with
  | ok i =>
    obtain rfl := encode_of_decode hd
    rw [executeCommand_of_decode hd, exec_eq_specCommand]
  | error e =>
    simp only [executeCommand, hd]
    by_cases hs : s.err = .none
    · rw [specCommand_of_check hs (checkWord_of_decode_error s hd) (decodeErrorCode_ne_none e),
        raise_of_none s hs]
    · have hw : w ≠ 0x60000000#32 := by
        rintro rfl
        exact nomatch hd.symm.trans (decode_encode .errack)
      rw [specCommand_of_error hs hw, raise_of_error s hs]

/-- What check finds is what execution raises (R165, R202). -/
theorem rejects_of_checkWord {w : Word} {s : State} {e : ErrCode} (hs : s.err = .none)
    (he : checkWord w s = e) (hne : e ≠ .none) : rejects w e s := by
  rw [rejects, executionFollowsTheSpecsPseudocode, specCommand_of_check hs he hne]

/-! ### Rejections (R201, R202) -/

/-- A set bit in a field that lies in the reserved mask of a defined opcode (R87). -/
theorem decode_of_reserved_field {w : Word} {op : BitVec 4} {a n : Nat} (hop : opField w = op)
    (hlt : op.toNat < 0x7) (hm : (reservedMask op).extractLsb' a n = BitVec.allOnes n)
    (hf : w.extractLsb' a n ≠ 0) : decode w = .error .reservedBits := by
  subst hop
  exact decode_reservedBits_iff.mpr ⟨hlt, fun hu => hf (extractLsb'_eq_zero_of_mask hm hu)⟩

theorem rejects_of_reserved_field {w : Word} {s : State} {op : BitVec 4} {a n : Nat}
    (hs : s.err = .none) (hop : opField w = op) (hlt : op.toNat < 0x7)
    (hm : (reservedMask op).extractLsb' a n = BitVec.allOnes n) (hf : w.extractLsb' a n ≠ 0) :
    rejects w .rsvd s :=
  rejects_of_decode_error hs (decode_of_reserved_field hop hlt hm hf)

/-- A word for which check begins with a context that must exist and be initialised, as it does for
RESET, ABSORB and FINAL. -/
theorem rejects_of_live_check {w : Word} {s : State} {c : CtxIx} {e : ErrCode} (hs : s.err = .none)
    (hw : checkWord w s =
      if s.nctx ≤ c.toNat then .ctx else if isUninit c s then .uninit else e) :
    (s.nctx ≤ c.toNat → rejects w .ctx s) ∧
      ∀ x, s.ctxs[c.toNat]? = some x → x.cst = .uninit → rejects w .uninit s := by
  refine ⟨fun hle => ?absent, fun x hx hu => ?uninit⟩
  case absent => exact rejects_of_checkWord hs (by rw [hw, if_pos hle]) (by decide)
  case uninit =>
    exact rejects_of_checkWord hs (by rw [hw, if_neg (not_nctx_le_of_getElem? hx),
      if_pos ((isUninit_iff hx).mpr hu)]) (by decide)

/-! ### NOP and ERRACK -/

/-- Settles O13: all of w[27:0] is reserved for opcode 0. -/
theorem nopChangesNothing : Obligations.NopChangesNothing :=
  ⟨fun _ => rfl, rfl, fun _ _ hs hop hf =>
    rejects_of_reserved_field hs hop (by decide) (by decide) hf⟩

/-- Settles O19: all of w[27:0] is reserved for opcode 6, and no such word is ERRACK. -/
theorem errackClearsTheError : Obligations.ErrackClearsTheError := by
  refine ⟨fun s hs => ?_, fun s hs => ?_, fun s w hop hf => ?_, rfl⟩
  · rw [exec, execErrack, acknowledge_of_error s hs]
  · rw [exec, execErrack, acknowledge_of_none s hs]
  · have hd := decode_of_reserved_field hop (by decide) (by decide) hf
    refine ⟨fun hs => rejects_of_decode_error hs hd, fun hs => ?_⟩
    simp only [executeCommand, hd, raise_of_error s hs]

/-! ### INIT and RESET -/

/-- resetCtx with its values written out (R160). -/
theorem fresh_eq (x : Context) :
    x.fresh = { cst := .empty, wid := x.wid, h := iv x.wid, N := 0, sigma := 0, buf := [] } := rfl

/-- The bytes of the initial values (R28). -/
theorem byte_iv {i : Nat} (hi : i < 64) :
    byte (iv .narrow) i = 0x01 ∧ byte (iv .wide) i = 0x00 :=
  ⟨byte_ofBytes _ i hi, byte_zero i⟩

/-- Settles O14: the new width decides the initial values, whatever the context held. -/
theorem initConfiguresTheContext : Obligations.InitConfiguresTheContext := by
  refine ⟨fun s c wid w hs hc hw => ?effect,
    fun s c wid hs => ⟨fun hle => ?ctx, fun hc hwid => ?width⟩, fun s w hs hop hf => ?reserved,
    fun i => byte_iv, fun c wid => ?encoding⟩
  case effect =>
    rw [exec_init hs hc (widthOperand_ok_iff.mpr hw),
      ← fresh_eq_streamContext ⟨.empty, w, 0, 0, 0, []⟩]
    rfl
  case ctx =>
    exact rejects_of_checkWord hs (by rw [checkWord_init, if_pos hle]) (by decide)
  case width =>
    have hbad : ¬(wid = 0b01#2 ∨ wid = 0b10#2) := by rcases hwid with rfl | rfl <;> decide
    exact rejects_of_checkWord hs
      (by rw [checkWord_init, if_neg (Nat.not_le.mpr hc), if_pos hbad]) (by decide)
  case reserved => exact rejects_of_reserved_field hs hop (by decide) (by decide) hf
  case encoding =>
    obtain ⟨hctx, hwid⟩ := operands_encode_init c wid
    exact ⟨opField_encode _, hctx, hwid, reserved_field_encode (.init c wid) 0x1 rfl (by decide)⟩

theorem exec_reset {s : State} {c : CtxIx} {x : Context} (hs : s.err = .none)
    (hx : s.ctxs[c.toNat]? = some x) (hu : x.cst ≠ .uninit) :
    exec (.reset c) s = .next (s.putCtx c x.fresh) :=
  command_of_ok hs (resetBody_ok_iff.mpr ⟨x, hx, hu, rfl⟩)

/-- Settles O15: an EMPTY context already is what resetCtx makes of it. -/
theorem resetEmptiesTheContext : Obligations.ResetEmptiesTheContext := by
  refine ⟨fun s c x hs hx hu => ?effect, fun s c x hs hx hinv he => ?empty,
    fun s c hs => rejects_of_live_check hs (checkWord_reset s c), fun s w hs hop hf => ?reserved,
    fun c => ?encoding⟩
  case effect =>
    rw [exec_reset hs hx hu, fresh_eq]
    rfl
  case empty =>
    rw [exec_reset hs hx (by simp [he]), ← hinv.empty he, putCtx_eq_self s c x hx]
  case reserved => exact rejects_of_reserved_field hs hop (by decide) (by decide) hf
  case encoding =>
    exact ⟨opField_encode _, operands_encode_reset c,
      reserved_field_encode (.reset c) 0x2 rfl (by decide)⟩

/-! ### ABSORB -/

/-- Settles O16, by whether the byte is the 64th. -/
theorem absorbAppendsOrConsumes : Obligations.AbsorbAppendsOrConsumes := by
  refine ⟨fun s c b x hs hx hu hlen => ?room, fun s c b x hs hx hu hlen => ?full,
    fun s c b hs => rejects_of_live_check hs (checkWord_absorb s c b),
    fun s w hs hop hf => ?reserved, fun c b => ?encoding⟩
  case room =>
    rw [exec_absorb b hs hx hu, absorb_of_room hlen.ne]
    rfl
  case full =>
    rw [exec_absorb b hs hx hu, absorb_of_full hlen, Context.consume]
    rfl
  case reserved => exact rejects_of_reserved_field hs hop (by decide) (by decide) hf
  case encoding =>
    obtain ⟨hctx, hdata⟩ := operands_encode_absorb c b
    exact ⟨opField_encode _, hctx, hdata, reserved_field_encode (.absorb c b) 0x3 rfl (by decide)⟩

/-- Settles O50, by induction on the bytes that follow (`execAll_absorbCommands`). -/
theorem absorbedStreamIsIndependentOfItsChunks :
    Obligations.AbsorbedStreamIsIndependentOfItsChunks :=
  fun _ _ _ _ b hs hx => execAll_absorbCommands hx hs b

/-! ### CLONE -/

/-- Settles O18: with d = s the context is written over itself. -/
theorem cloneCopiesTheContext : Obligations.CloneCopiesTheContext := by
  refine ⟨fun s d src x hs hd hx hu => exec_clone hs hd hx hu, fun s d x hs hx hu => ?self,
    fun s d src hs => ⟨fun hle => ?ctx, fun x hd hx hu => ?uninit⟩, fun s w hs hop hf => ?reserved,
    fun d src => ?encoding⟩
  case self => rw [exec_clone hs (lt_nctx_of_getElem? hx) hx hu, putCtx_eq_self s d x hx]
  case ctx =>
    refine rejects_of_checkWord hs ?_ (by decide)
    rw [checkWord_clone]
    by_cases hd : s.nctx ≤ d.toNat
    · rw [if_pos hd]
    · rw [if_neg hd, if_pos (hle.resolve_left hd)]
  case uninit =>
    exact rejects_of_checkWord hs (by rw [checkWord_clone, if_neg (Nat.not_le.mpr hd),
      if_neg (not_nctx_le_of_getElem? hx), if_pos ((isUninit_iff hx).mpr hu)]) (by decide)
  case reserved => exact rejects_of_reserved_field hs hop (by decide) (by decide) hf
  case encoding =>
    obtain ⟨hctx, hsrc⟩ := operands_encode_clone d src
    exact ⟨opField_encode _, hctx, hsrc, reserved_field_encode (.clone d src) 0x5 rfl (by decide)⟩

/-! ### The final block (R162) -/

/-- Byte by byte in stream order: the pending bytes, 0x01, zeros. -/
theorem getD_padded (buf : List Byte) (i : Nat) :
    (buf ++ [0x01] ++ List.replicate (63 - buf.length) 0x00).getD i 0 =
      if i < buf.length then buf.getD i 0 else if i = buf.length then 0x01 else 0x00 := by
  split_ifs with hlt heq
  · rw [List.append_assoc, List.getD_append _ _ _ _ hlt]
  · subst heq; simp
  · rw [List.getD_append_right _ _ _ _ (by simp; omega),
      List.getD_eq_getElem?_getD, List.getElem?_replicate]
    split <;> rfl

theorem consumeFinal_eq (x : Context) :
    x.consumeFinal =
      { x with
        h := compress x.N x.h (rev (padBlock x.buf))
        N := add512 x.N (be64 (8 * x.buf.length))
        sigma := add512 x.sigma (rev (padBlock x.buf)) } := by
  rw [Context.consumeFinal, Context.consume]

/-- The pad alone: its one set bit is bit 0 of the reversed block. -/
theorem rev_padBlock_nil : rev (padBlock []) = be64 1 := by decide +kernel

/-- Settles O47: the two reversals cancel, so the block is read in stream order. -/
theorem finalBlockIsPadded : Obligations.FinalBlockIsPadded := by
  refine fun x _ => ⟨fun i hi => ?bytes, consumeFinal_eq x, fun hbuf => ⟨?block, ?count⟩⟩
  case bytes => rw [padBlock, byte_rev_ofList _ hi, getD_padded]
  case block => rw [hbuf, rev_padBlock_nil]
  case count => rw [consumeFinal_eq, hbuf]; simp [add512, be64]

/-! ### The closing step and delivery (R163, R164) -/

/-- Settles O48: a narrow context drops the first 32 of the 64 bytes. -/
theorem digestBytesOfTheFinalChainingValue : Obligations.DigestBytesOfTheFinalChainingValue := by
  intro x h2 hh2
  have hclose : x.closeValue = h2 := hh2.symm
  refine ⟨fun hw => ?wide, fun hw => ⟨length_close_of_narrow hw, fun i hi => ?narrow⟩⟩
  case wide =>
    simp only [Context.close, hw, hclose]
    exact ⟨length_toList _, fun i hi => getElem?_toList _ i hi⟩
  case narrow =>
    simp only [Context.close, hw, hclose]
    rw [List.getElem?_drop, getElem?_toList _ _ (by omega)]

/-- Settles O49: the digest is read beyond the 32 bytes a narrow context emits. -/
theorem deliveryZeroesBeyondANarrowDigest : Obligations.DeliveryZeroesBeyondANarrowDigest := by
  intro s c x
  have hbyte : ∀ i, i < 64 → byte (s.deliver c x.wid x.close).digest i = x.close.getD i 0 :=
    fun i hi => by rw [deliver_digest, byte_ofList _ _ hi]
  refine ⟨hbyte, fun hw i hlo hi => ?_, by unfold State.deliver; rfl⟩
  rw [hbyte i hi, List.getD_eq_default _ _ (by rw [length_close_of_narrow hw]; exact hlo)]

/-! ### FINAL (R170) -/

theorem ofList_toList (b : Bytes64) : ofList (toList b) = b :=
  eq_of_byte_eq fun i hi => by
    rw [byte_ofList _ _ hi, List.getD_eq_getElem?_getD, getElem?_toList b i hi, Option.getD_some]

/-- DIGEST after the closing step: the reversed final h or its second half (R163, R164). -/
theorem ofList_close (x : Context) :
    ofList x.close =
      if x.wid = .narrow then ofList ((toList (rev x.closeValue)).drop 32)
      else rev x.closeValue := by
  rw [Context.close]
  cases x.wid with
  | narrow => rfl
  | wide => exact ofList_toList _

/-- Settles O17: the closing value of the padded context is h2, and its width is the old one. -/
theorem finalDeliversTheDigest : Obligations.FinalDeliversTheDigest := by
  refine ⟨fun s c olen x r h2 hs hx hu hz hr hh2 => ?effect,
    fun s c olen hs => ?errors, fun s w hs hop hf => ?reserved, fun c olen => ?encoding⟩
  case effect =>
    have hclose : x.consumeFinal.closeValue = h2 := by
      rw [hh2, hr, Context.closeValue, consumeFinal_eq]
      rfl
    rw [exec_final hs hx hu (hz.trans (digestBytes_eq_ite _).symm), fresh_eq, State.deliver,
      Context.finish, ofList_close, hclose, consumeFinal_wid]
    rfl
  case errors =>
    obtain ⟨habsent, huninit⟩ := rejects_of_live_check hs (checkWord_final s c olen)
    refine ⟨habsent, huninit, fun x hx hu hz => rejects_of_checkWord hs ?_ (by decide)⟩
    rw [checkWord_final, if_neg (not_nctx_le_of_getElem? hx),
      if_neg (mt (isUninit_iff hx).mp hu), if_pos ((wrongSize_iff hx olen).mpr hz)]
  case reserved => exact rejects_of_reserved_field hs hop (by decide) (by decide) hf
  case encoding =>
    obtain ⟨hctx, holen⟩ := operands_encode_final c olen
    exact ⟨opField_encode _, hctx, holen, reserved_field_encode (.final c olen) 0x4 rfl (by decide)⟩

theorem widthOperand_code (w : Width) : widthOperand w.code = .ok w := by cases w <;> rfl

/-- Settles O53: FINAL and INIT leave the context of the empty stream. -/
theorem finalImpliesReset : Obligations.FinalImpliesReset := by
  intro s c olen x hs hx hu hz
  have hlt := lt_nctx_of_getElem? hx
  have hfinal := exec_final hs hx hu hz
  rw [fresh_eq_streamContext] at hfinal
  have hempty := putCtx_getElem?_self (s.deliver c x.wid x.finish) c (streamContext x.wid []) hlt
  have hsecond := exec_final_streamContext hempty hs hz
  have hfresh : (streamContext x.wid []).fresh = streamContext x.wid [] := fresh_eq_streamContext _
  rw [hfresh] at hsecond
  refine ⟨_, _, _, hfinal, exec_init hs hlt (widthOperand_code x.wid), ?_, hsecond, ?_, ?_⟩
  all_goals simp

end Sys2Proof.Machine
end

section
/-! Proofs of the family 60_exceptions: what latches an error and what clears one, what ERRINFO
records, and which commands may change places (spec/60_exceptions.md R200 to R214). -/

namespace Sys2Proof.Machine

/-- Settles O12: each arm is a command frame, which always answers (`exists_exec_eq_next`). -/
theorem everyCommandAnswersANextState : Obligations.EveryCommandAnswersANextState :=
  exists_exec_eq_next

/-! ### The engine while an error is latched (R203) -/

section
variable {s : State}

/-- Of all words only ERRACK acts. -/
theorem executeCommand_of_latched (hs : s.err ≠ .none) (w : Word) :
    executeCommand w s =
      .next (if w = 0x60000000#32 then { s with err := .none, errInfo := 0 } else s) := by
  rw [executionFollowsTheSpecsPseudocode, specCommand, if_pos hs, ackOrIgnore]

/-- Of all writes to the window only that of ERRACK to CMD acts. -/
theorem writeWord_of_latched (hs : s.err ≠ .none) (off : Nat) (lanes : BitVec 4) (v : Word) :
    writeWord off lanes v s =
      .next (if off = 0 ∧ lanes = 0b1111#4 ∧ v = 0x60000000#32
        then { s with err := .none, errInfo := 0 } else s) := by
  by_cases hcmd : off = 0 ∧ lanes = 0b1111#4
  · obtain ⟨rfl, rfl⟩ := hcmd
    rw [writeWord_cmd, executeCommand_of_latched hs]
    simp
  · rw [writeWord_of_not_cmd (not_and_or.mp hcmd), raise_of_error s hs,
      if_neg fun ⟨hoff, hlanes, _⟩ => hcmd ⟨hoff, hlanes⟩]

end

/-- Settles O27: the step is that write or read, the event taken from the queue. -/
theorem latchedErrorDropsEverythingButErrack :
    Obligations.LatchedErrorDropsEverythingButErrack := by
  refine fun s rest off lanes v hs hoff => ⟨fun hp => ?write, fun hp => step_read_replies hp hoff⟩
  case write =>
    rw [step_write hp hoff]
    exact writeWord_of_latched (s := { s with pending := rest }) hs off lanes v

/-- Of the events that the engine takes only reset and ERRACK clear an error. -/
theorem takeEvent_clears_error {e : BusEvent} {s t : State} (h : takeEvent e s = .next t)
    (hs : s.err ≠ .none) (ht : t.err = .none) :
    e = .hwReset ∨ e = .write s.base 0b1111#4 0x60000000#32 := by
  rcases takeEvent_cases h with ⟨off, lanes, -, -, rfl⟩ | ⟨off, lanes, v, -, -, -, rfl⟩ |
    ⟨v, rfl, hv⟩ | ⟨rfl, -⟩
  · exact absurd ht hs
  · exact absurd (raise_of_error s hs ▸ ht) hs
  · by_cases hw : v = 0x60000000#32
    · exact .inr (by rw [hw])
    · rw [executeCommand_of_latched hs, if_neg hw] at hv
      cases hv
      exact absurd ht hs
  · exact .inl rfl

/-- Settles O28: an idle step keeps the error. -/
theorem onlyErrackLeavesTheErrorState : Obligations.OnlyErrackLeavesTheErrorState := by
  intro s t h hs ht
  rcases step_cases h with ⟨-, rfl⟩ | ⟨e, rest, hp, he⟩
  · exact absurd ht hs
  · exact ⟨e, rest, hp, takeEvent_clears_error (s := { s with pending := rest }) he hs ht⟩

/-! ### What an error records (R200, R202) -/

theorem Rejection.ne_bus {n : Nat} {i : Instr} {e : ErrCode} (h : Rejection n i e) : e ≠ .bus := by
  cases h <;> decide

theorem decodeErrorCode_ne_bus (e : DecodeError) : decodeErrorCode e ≠ .bus := by
  cases e <;> decide

/-- A command that latches an error does nothing else. -/
theorem Did.eq_of_raises {i : Instr} {s t : State} (h : Did i s t) (hs : s.err = .none)
    (ht : t.err ≠ .none) : ∃ e, e ≠ .bus ∧ t = { s with err := e, errInfo := encode i } := by
  cases h with
  | rejected _ hr => exact ⟨_, hr.ne_bus, rfl⟩
  | dropped => exact absurd hs ht
  | nop => exact absurd hs ht
  | errack => exact absurd (acknowledge_err s) ht
  | final => exact absurd (by simpa using hs) ht
  | _ => exact absurd hs ht

/-- A word that latches an error does nothing else, and ERRINFO is the word. -/
theorem executeCommand_eq_of_raises {w : Word} {s t : State} (h : executeCommand w s = .next t)
    (hs : s.err = .none) (ht : t.err ≠ .none) :
    ∃ e, e ≠ .bus ∧ t = { s with err := e, errInfo := w } := by
  rcases executeCommand_cases h with ⟨i, hw, hi⟩ | ⟨e, -, ho⟩
  · obtain rfl := encode_of_decode hw
    exact (did_of_exec hi).eq_of_raises hs ht
  · cases ho
    exact ⟨_, decodeErrorCode_ne_bus e, raise_of_none s hs⟩

/-- A write that latches an error does nothing else; ERRINFO is the offset or the word. -/
theorem writeWord_eq_of_raises {off : Nat} {lanes : BitVec 4} {v : Word} {s t : State}
    (h : writeWord off lanes v s = .next t) (hs : s.err = .none) (ht : t.err ≠ .none) :
    t = { s with
      err := t.err
      errInfo := if t.err = .bus then BitVec.ofNat 32 off else v } := by
  rcases writeWord_cases h with ⟨-, ho⟩ | ⟨-, -, ho⟩
  · cases ho
    rw [raise_of_none s hs]
    rfl
  · obtain ⟨e, he, rfl⟩ := executeCommand_eq_of_raises ho.symm hs ht
    rw [if_neg he]

/-- Settles O26: with an error latched only ERRACK acts, and its word is a command. -/
theorem errorsArePrecise : Obligations.ErrorsArePrecise := by
  intro s t off lanes v rest hp hoff h
  rw [step_write hp hoff] at h
  refine ⟨writeWord_eq_of_raises h, fun hs hv => ?latched⟩
  case latched =>
    have hno : ¬ (off = 0 ∧ lanes = 0b1111#4 ∧ v = 0x60000000#32) := by
      rintro ⟨rfl, rfl, rfl⟩
      obtain ⟨e, he⟩ := (hv.resolve_left (not_not.mpr rfl)).resolve_left (not_not.mpr rfl)
      exact nomatch he.symm.trans (decode_encode .errack)
    have hdropped := writeWord_of_latched (s := { s with pending := rest }) hs off lanes v
    rw [if_neg hno, h] at hdropped
    exact Host.Outcome.next.inj hdropped

/-! ### ERRINFO spells ERR (R200) -/

/-- ERRINFO spells the error that ERR holds. -/
def State.spelled (s : State) : Prop := errInfoSpells s.err s.errInfo s.nctx

/-- A rejected command is a word that spells the error. -/
theorem Rejection.spells {n : Nat} {i : Instr} {e : ErrCode} (h : Rejection n i e) {w : Word}
    (hw : decode w = .ok i) : errInfoSpells e w n := by
  cases h with
  | ctx h => exact ⟨i, hw, h⟩
  | width _ hwid => exact ⟨_, _, hw, hwid⟩
  | resetUninit hc => exact ⟨_, hw, decide_eq_true hc, .inl ⟨_, rfl⟩⟩
  | absorbUninit hc => exact ⟨_, hw, decide_eq_true hc, .inr (.inl ⟨_, _, rfl⟩)⟩
  | finalUninit hc => exact ⟨_, hw, decide_eq_true hc, .inr (.inr (.inl ⟨_, _, rfl⟩))⟩
  | cloneUninit hd hs =>
    exact ⟨_, hw, by simp [Instr.contextsExist, hd, hs], .inr (.inr (.inr ⟨_, _, rfl⟩))⟩
  | size hc => exact ⟨_, _, hw, hc⟩

/-- A word that is no command spells its error. -/
theorem spells_of_decode_error {w : Word} {e : DecodeError} (h : decode w = .error e) (n : Nat) :
    errInfoSpells (decodeErrorCode e) w n := by
  cases e with
  | illegalOpcode => exact decode_illegalOpcode_iff.mp h
  | reservedBits => exact decode_reservedBits_iff.mp h

/-- An offset of the window spells E_BUS. -/
theorem spells_bus {off : Nat} (h : off < 0x200) (n : Nat) :
    errInfoSpells .bus (BitVec.ofNat 32 off) n := by
  have hoff : (BitVec.ofNat 32 off).toNat = off := Nat.mod_eq_of_lt (by omega)
  rwa [errInfoSpells, hoff]

namespace State.spelled

variable {s t : State}

/-- What leaves ERR, ERRINFO and NCTX alone keeps the spelling. -/
theorem congr (hs : s.spelled) (he : sameError s t) (hn : t.nctx = s.nctx) : t.spelled := by
  obtain ⟨herr, hinfo⟩ := he
  rwa [spelled, herr, hinfo, hn]

theorem raise (hs : s.spelled) {code : ErrCode} {info : Word}
    (h : errInfoSpells code info s.nctx) : (raise code info s).spelled := by
  by_cases he : s.err = .none
  · rw [raise_of_none s he]; exact h
  · rwa [raise_of_error s he]

theorem acknowledge (hs : s.spelled) : (acknowledge s).spelled := by
  by_cases he : s.err = .none
  · rwa [acknowledge_of_none s he]
  · rw [acknowledge_of_error s he]; rfl

theorem putCtx (hs : s.spelled) (c : CtxIx) (x : Context) : (s.putCtx c x).spelled :=
  hs.congr ⟨rfl, rfl⟩ (putCtx_nctx s c x)

theorem deliver (hs : s.spelled) (c : CtxIx) (w : Width) (o : List Byte) :
    (s.deliver c w o).spelled :=
  hs.congr ⟨deliver_err s c w o, deliver_errInfo s c w o⟩ (deliver_nctx s c w o)

end State.spelled

theorem Did.keeps_spelled {i : Instr} {s t : State} (h : Did i s t) (hs : s.spelled) :
    t.spelled := by
  cases h with
  | dropped => exact hs
  | rejected _ hr => exact hr.spells (decode_encode i)
  | nop => exact hs
  | errack => exact hs.acknowledge
  | final => exact (hs.deliver _ _ _).putCtx _ _
  | _ => exact hs.putCtx _ _

theorem executeCommand_keeps_spelled {w : Word} {s t : State} (h : executeCommand w s = .next t)
    (hs : s.spelled) : t.spelled := by
  rcases executeCommand_cases h with ⟨i, -, hi⟩ | ⟨e, hw, ho⟩
  · exact (did_of_exec hi).keeps_spelled hs
  · cases ho
    exact hs.raise (spells_of_decode_error hw _)

theorem takeEvent_keeps_spelled {e : BusEvent} {s t : State} (h : takeEvent e s = .next t)
    (hs : s.spelled) : t.spelled := by
  rcases takeEvent_cases h with ⟨off, -, -, -, rfl⟩ | ⟨off, -, -, hoff, -, -, rfl⟩ | ⟨v, -, hv⟩ |
    ⟨-, rfl⟩
  · exact hs
  · exact hs.raise (spells_bus hoff _)
  · exact executeCommand_keeps_spelled hv hs
  · rfl

/-- Settles O29: a step is idle or takes one event, and every event keeps the spelling. -/
theorem stepKeepsErrInfoSpelling : Obligations.StepKeepsErrInfoSpelling := by
  intro s t hs h
  rcases step_cases h with ⟨-, rfl⟩ | ⟨e, rest, -, he⟩
  · exact hs
  · exact takeEvent_keeps_spelled he hs

/-! ### Commands that change places (R20, R212) -/

/-- What an accepted command writes, with the values already computed. -/
inductive Effect (i : Instr) where
  | nothing
  | context (c : CtxIx) (x : Context) (h : targetOf i = some c)
  | digest (c : CtxIx) (w : Width) (o : List Byte) (x : Context) (h : targetOf i = some c)
      (hf : isFinal i = true)

/-- The state after the writes. -/
def Effect.apply {i : Instr} : Effect i → State → State
  | .nothing, s => s
  | .context c x _, s => s.putCtx c x
  | .digest c w o x _ _, s => (s.deliver c w o).putCtx c x

theorem putCtx_comm (s : State) {c d : CtxIx} (h : c ≠ d) (x y : Context) :
    (s.putCtx c x).putCtx d y = (s.putCtx d y).putCtx c x := by
  simp only [State.putCtx, List.set_comm _ _ (BitVec.toNat_ne.mp h)]

section
variable {i j : Instr} {s : State}

theorem Effect.touches (f : Effect i) (s : State) : Touches i s (f.apply s) := by
  cases f with
  | nothing => exact .nothing
  | context _ _ h => exact .context h
  | digest _ _ _ _ h hf => exact .digest h hf

theorem Effect.apply_err (f : Effect i) (s : State) : (f.apply s).err = s.err := by
  cases f <;> simp [Effect.apply]

/-- Contexts that the command does not name stay as they are. -/
theorem Effect.apply_getElem? (f : Effect i) (s : State) {k : CtxIx} (hk : k ∉ contextsOf i) :
    (f.apply s).ctxs[k.toNat]? = s.ctxs[k.toNat]? :=
  (f.touches s).getElem?_other fun _ hc heq =>
    hk (BitVec.eq_of_toNat_eq heq ▸ targetOf_mem_contextsOf hc)

/-- Effects on two contexts commute, unless both write the one DIGEST. -/
theorem Effect.apply_comm (f : Effect i) (g : Effect j)
    (hdisj : ∀ c ∈ contextsOf i, c ∉ contextsOf j)
    (hfinal : ¬ (isFinal i = true ∧ isFinal j = true)) (s : State) :
    g.apply (f.apply s) = f.apply (g.apply s) := by
  have hne : ∀ {c d}, targetOf i = some c → targetOf j = some d → c ≠ d := fun hc hd hcd =>
    hdisj _ (targetOf_mem_contextsOf hc) (hcd ▸ targetOf_mem_contextsOf hd)
  cases f with
  | nothing => rfl
  | context c x hc =>
    cases g with
    | nothing => rfl
    | context d y hd => exact putCtx_comm s (hne hc hd) x y
    | digest d w o y hd _ =>
      simp only [Effect.apply]
      rw [deliver_putCtx, putCtx_comm _ (hne hc hd)]
  | digest c w o x hc hf =>
    cases g with
    | nothing => rfl
    | context d y hd =>
      simp only [Effect.apply]
      rw [deliver_putCtx, putCtx_comm _ (hne hc hd)]
    | digest _ _ _ _ _ hf' => exact absurd ⟨hf, hf'⟩ hfinal

/-- A body that check finds no error in answers a state. -/
theorem exists_ok_of_check {body : State → Except ErrCode State} (ha : accepts s i)
    (hcheck : checkWord (encode i) s = errorOf (body s))
    (hrej : ∀ e, body s = .error e → Rejection s.nctx i e) : ∃ t, body s = .ok t := by
  cases hb : body s with
  | ok t => exact ⟨t, rfl⟩
  | error e =>
    rw [ha.2, hb] at hcheck
    exact absurd hcheck.symm (hrej e hb).ne_none

/-- An accepted command has one effect on all states without an error that agree on the contexts it
names. -/
theorem exists_effect (ha : accepts s i) :
    ∃ f : Effect i, ∀ u : State, u.err = .none →
      (∀ k ∈ contextsOf i, u.ctxs[k.toNat]? = s.ctxs[k.toNat]?) → exec i u = .next (f.apply u) := by
  cases i with
  | nop => exact ⟨.nothing, fun u _ _ => rfl⟩
  | errack => exact ⟨.nothing, fun u hu _ => congrArg _ (acknowledge_of_none u hu)⟩
  | init c wid =>
    obtain ⟨t, ht⟩ := exists_ok_of_check ha (checkWord_eq_errorOf_initBody s c wid)
      fun _ => rejection_of_initBody
    obtain ⟨x, w, hx, hw, -⟩ := initBody_ok_iff.mp ht
    exact ⟨.context c (streamContext w []) rfl, fun u hu hctx =>
      exec_init hu (lt_nctx_of_getElem? ((hctx c (by simp [contextsOf])).trans hx)) hw⟩
  | reset c =>
    obtain ⟨t, ht⟩ := exists_ok_of_check ha (checkWord_eq_errorOf_resetBody s c)
      fun _ => rejection_of_resetBody
    obtain ⟨x, hx, hlive, -⟩ := resetBody_ok_iff.mp ht
    exact ⟨.context c x.fresh rfl, fun u hu hctx =>
      exec_reset hu ((hctx c (by simp [contextsOf])).trans hx) hlive⟩
  | absorb c b =>
    obtain ⟨t, ht⟩ := exists_ok_of_check ha (checkWord_eq_errorOf_absorbBody s c b)
      fun _ => rejection_of_absorbBody
    obtain ⟨x, hx, hlive, -⟩ := absorbBody_ok_iff.mp ht
    exact ⟨.context c (x.absorb b) rfl, fun u hu hctx =>
      exec_absorb b hu ((hctx c (by simp [contextsOf])).trans hx) hlive⟩
  | final c olen =>
    obtain ⟨t, ht⟩ := exists_ok_of_check ha (checkWord_eq_errorOf_finalBody s c olen)
      fun _ => rejection_of_finalBody
    obtain ⟨x, hx, hlive, hsize, -⟩ := finalBody_ok_iff.mp ht
    exact ⟨.digest c x.wid x.finish x.fresh rfl rfl, fun u hu hctx =>
      exec_final hu ((hctx c (by simp [contextsOf])).trans hx) hlive hsize⟩
  | clone d src =>
    obtain ⟨t, ht⟩ := exists_ok_of_check ha (checkWord_eq_errorOf_cloneBody s d src)
      fun _ => rejection_of_cloneBody
    obtain ⟨x, hd, hx, hlive, -⟩ := cloneBody_ok_iff.mp ht
    exact ⟨.context d x rfl, fun u hu hctx =>
      exec_clone hu ((lt_nctx_congr (hctx d (by simp [contextsOf]))).mpr hd)
        ((hctx src (by simp [contextsOf])).trans hx) hlive⟩

end

/-- Settles O55: neither command changes what the other's effect is, and the two effects commute. -/
theorem commandsOnDifferentContextsCommute : Obligations.CommandsOnDifferentContextsCommute := by
  intro s i j hi hj hdisj hfinal
  obtain ⟨f, hf⟩ := exists_effect hi
  obtain ⟨g, hg⟩ := exists_effect hj
  refine ⟨g.apply (f.apply s), ?ij, ?ji⟩
  case ij =>
    have hsecond := hg (f.apply s) ((f.apply_err s).trans hi.1) fun k hk =>
      f.apply_getElem? s fun hki => hdisj k hki hk
    rw [execAll_cons (hf s hi.1 fun _ _ => rfl), execAll_cons hsecond]
    rfl
  case ji =>
    have hsecond := hf (g.apply s) ((g.apply_err s).trans hj.1) fun k hk =>
      g.apply_getElem? s (hdisj k hk)
    rw [f.apply_comm g hdisj hfinal, execAll_cons (hg s hj.1 fun _ _ => rfl),
      execAll_cons hsecond]
    rfl

end Sys2Proof.Machine
end

section
/-! Proofs of the family 70_reset_and_hazards: what a step does whose next event is a
pulse of the reset input (spec/70_reset_and_hazards.md R230). -/

namespace Sys2Proof.Machine

/-- A step whose next event is a pulse of the reset input. -/
theorem step_hwReset {s : State} {rest : List BusEvent} (hp : s.pending = .hwReset :: rest) :
    step s = .next (hardwareReset { s with pending := rest }) := step_of_event hp

/-- The contexts after a hardware reset are those of the reset state (R38). -/
theorem eq_uninit_of_mem_hardwareReset {s : State} {x : Context}
    (h : x ∈ (hardwareReset s).ctxs) : x = Context.uninit :=
  eq_uninit_of_mem_resetWith (u := s.baseUnit) h

/-- Settles O2: the step is `hardwareReset`, of the state without the event it has taken. -/
theorem hardwareResetRestoresTheResetValues :
    Obligations.HardwareResetRestoresTheResetValues := by
  intro s rest hp
  refine ⟨_, step_hwReset hp, hardwareReset_nctx _, fun x hx => ?_,
    rfl, rfl, rfl, rfl, rfl, rfl, rfl, rfl, rfl⟩
  rw [eq_uninit_of_mem_hardwareReset hx]
  exact ⟨rfl, rfl⟩

end Sys2Proof.Machine
end
